-- ==== Sys2Proof/Word.lean ====
section
/-! DEFINITION. The data every other file is made of: the binary64 datum NUM, the 32-bit command word, the bank of seven
like values (supersaw phases, INIT offsets), and the names of the floating-point operations. -/

namespace Sys2Proof

/-- A byte, met only when a word or a value is serialised (20_memory.md R53). -/
abbrev Byte := BitVec 8

/-- A command word (30_encoding.md R71). -/
abbrev CmdWord := BitVec 32

/-- The 3-bit mode code of a sample step (30_encoding.md R78). -/
abbrev ModeBits := BitVec 3

/-- NUM, an IEEE 754 binary64 datum held as its 64-bit interchange pattern (00_scope.md R6, R7; 20_memory.md R53). It is
a structure and not a bit vector, so that no integer operation can be applied to it by mistake. -/
structure F64 where
  bits : BitVec 64
deriving DecidableEq, Repr, Inhabited

/-- The three correctly rounded operations of 00_scope.md R7 (subtraction is the addition of the negated operand). -/
inductive FpOp where
  | add | mul | div
deriving DecidableEq, Repr

/-- Seven like values, entry `v<i>` being index i: the supersaw phase file `ssp[0..6]` and the INIT offsets `off[0..6]`
(10_state.md R23, 30_encoding.md R74). -/
structure Seven (α : Type) where
  v0 : α
  v1 : α
  v2 : α
  v3 : α
  v4 : α
  v5 : α
  v6 : α
deriving DecidableEq, Repr

namespace Seven

/-- All seven entries equal to `a`. -/
def fill {α : Type} (a : α) : Seven α := ⟨a, a, a, a, a, a, a⟩

/-- Entry i. -/
def get {α : Type} (b : Seven α) (i : Fin 7) : α :=
  match i with
  | 0 => b.v0
  | 1 => b.v1
  | 2 => b.v2
  | 3 => b.v3
  | 4 => b.v4
  | 5 => b.v5
  | 6 => b.v6

/-- The entries in ascending index. -/
def toList {α : Type} (b : Seven α) : List α := [b.v0, b.v1, b.v2, b.v3, b.v4, b.v5, b.v6]

/-- Each entry mapped together with its detune step k = i - 3 (10_state.md R23). -/
def mapStep {α β : Type} (f : Int → α → β) (b : Seven α) : Seven β :=
  ⟨f (-3) b.v0, f (-2) b.v1, f (-1) b.v2, f 0 b.v3, f 1 b.v4, f 2 b.v5, f 3 b.v6⟩

end Seven

end Sys2Proof
end

