-- ==== Sys2Proof/Syntax.lean ====
section
/-! DEFINITION. The instructions: one constructor per row of spec/opcode_table.json, with typed operands (30_encoding.md R80:
"There are no immediates. Every operand is a typed value in the operand record"). -/

namespace Sys2Proof

/-- A parameter source `(kval, arr)` of a RENDER (10_state.md R31). -/
structure Source where
  kval : F64
  arr : List F64
deriving DecidableEq, Repr

/-- The seven control parameters (00_scope.md R11). -/
inductive Param where
  | mode | freq | gain | pulseWidth | detune | fmIndex | timbre
deriving DecidableEq, Repr

/-- The parameter's number p (00_scope.md R11), as FINFO records it (10_state.md R30: 0..7, 7 naming no parameter). -/
def Param.index : Param → Fin 8
  | .mode => 0
  | .freq => 1
  | .gain => 2
  | .pulseWidth => 3
  | .detune => 4
  | .fmIndex => 5
  | .timbre => 6

/-- The parameters in ascending p. -/
def Param.all : List Param := [.mode, .freq, .gain, .pulseWidth, .detune, .fmIndex, .timbre]

/-- The sources `src[0..6]` of a RENDER, by the name of their parameter (30_encoding.md R75). -/
structure Sources where
  mode : Source
  freq : Source
  gain : Source
  pulseWidth : Source
  detune : Source
  fmIndex : Source
  timbre : Source
deriving DecidableEq, Repr

/-- `src[p]`. -/
def Sources.get (src : Sources) : Param → Source
  | .mode => src.mode
  | .freq => src.freq
  | .gain => src.gain
  | .pulseWidth => src.pulseWidth
  | .detune => src.detune
  | .fmIndex => src.fmIndex
  | .timbre => src.timbre

/-- An instruction of spec/opcode_table.json: the four CMD rows, then the five MODE rows (00_scope.md R2). -/
inductive Instr where
  /-- INIT, operand record `{ sampleRate, off[0..6] }` (30_encoding.md R74). -/
  | init (sampleRate : F64) (off : Seven F64)
  /-- RENDER, operand record `{ N, src[0..6] }` (30_encoding.md R75). -/
  | render (n : Nat) (src : Sources)
  /-- RESET, the empty operand record (30_encoding.md R76). -/
  | reset
  /-- UNRECOGNISED: every word that is not one of the three of 30_encoding.md R72, kept as it came. -/
  | unrecognised (w : CmdWord)
  /-- SAW, mode code 0. -/
  | saw
  /-- PULSE, mode code 1. -/
  | pulse
  /-- SUPERSAW, mode code 2. -/
  | supersaw
  /-- FM2OP, mode code 3. -/
  | fm2op
  /-- PDFOLD, mode code 4. -/
  | pdfold
deriving DecidableEq, Repr

/-- The operand record that comes with a command word: the three shapes of 30_encoding.md R74 to R76. -/
inductive OperandRecord where
  | empty
  | init (sampleRate : F64) (off : Seven F64)
  | render (n : Nat) (src : Sources)
deriving DecidableEq, Repr

/-- A command `(w, ops)` as the host delivers it (30_encoding.md R70). -/
structure Command where
  word : CmdWord
  ops : OperandRecord
deriving DecidableEq, Repr

/-- The source that holds a value for the whole block and no array. -/
def Source.const (v : F64) : Source := { kval := v, arr := [] }

/-- The pseudo-instruction NOP (30_encoding.md R84): `.word 0x00000000`. -/
def Command.nop : Command := { word := 0x00000000#32, ops := .empty }

/-- The pseudo-instruction RENDERK (30_encoding.md R84): a RENDER with every array empty. -/
def Command.renderK (n : Nat) (m f g pw det fm tim : F64) : Command :=
  { word := 0x00000002#32,
    ops := .render n
      { mode := .const m, freq := .const f, gain := .const g, pulseWidth := .const pw, detune := .const det,
        fmIndex := .const fm, timbre := .const tim } }

end Sys2Proof
end

