-- ==== Sys2Proof/WellFormed.lean ====
section
/-! DEFINITION. Which instruction terms stand for something a host can send or a sample step can select. -/

namespace Sys2Proof

/-- The three assigned command words (30_encoding.md R72). -/
def assignedWords : List CmdWord := [0x00000001#32, 0x00000002#32, 0x00000010#32]

/-- An instruction is well formed when its word is one its row admits: an unrecognised command never carries an assigned
word (30_encoding.md R81). Operand values and array lengths are no matter of form: INIT and RENDER check them when they run
(43_engine.md R182, R184, R191). -/
def Instr.WellFormed : Instr → Bool
  | .init _ _ => true
  | .render _ _ => true
  | .reset => true
  | .unrecognised w => !assignedWords.contains w
  | .saw => true
  | .pulse => true
  | .supersaw => true
  | .fm2op => true
  | .pdfold => true

end Sys2Proof
end

