-- ==== Sys2Proof/Decode.lean ====
section
/-! DEFINITION. The decoder, total on every command word and mode code and rejecting by name, and the encoder beside it
(30_encoding.md R70 to R82; spec/opcode_table.json). -/

namespace Sys2Proof

/-- What a command word decodes to (30_encoding.md R77). -/
inductive CmdKind where
  | init | render | reset | unrecognised
deriving DecidableEq, Repr

/-- Field RSV, w[31:8] (30_encoding.md R71). -/
def fieldRsv (w : CmdWord) : BitVec 24 := w.extractLsb' 8 24

/-- Field OP, w[7:0] (30_encoding.md R71). -/
def fieldOp (w : CmdWord) : BitVec 8 := w.extractLsb' 0 8

/-- `decode(w)` of 30_encoding.md R77, total on every 32-bit word. -/
def cmdKind (w : CmdWord) : CmdKind :=
  if fieldRsv w ≠ 0#24 then .unrecognised
  else if fieldOp w = 0x01#8 then .init
  else if fieldOp w = 0x02#8 then .render
  else if fieldOp w = 0x10#8 then .reset
  else .unrecognised

/-- Why the decoder gives no instruction. -/
inductive DecodeError where
  /-- The operand record has not the shape the word's kind requires: "not a command of this spec" (30_encoding.md R70; U9). -/
  | operandShape (kind : CmdKind)
  /-- Mode codes 5, 6 and 7, which "cannot arise" (30_encoding.md R78). -/
  | reservedMode (m : ModeBits)
  /-- Fewer than the four bytes of a command word. -/
  | shortWord
deriving DecidableEq, Repr

/-- The instruction a command stands for: its word's kind, with the operand record that kind requires (30_encoding.md R70). An
unrecognised command's record, "if any, is ignored" (43_engine.md R196; log 11). -/
def decodeCommand (c : Command) : Except DecodeError Instr :=
  match cmdKind c.word with
  | .init =>
    match c.ops with
    | .init sampleRate off => .ok (.init sampleRate off)
    | .empty => .error (.operandShape .init)
    | .render _ _ => .error (.operandShape .init)
  | .render =>
    match c.ops with
    | .render n src => .ok (.render n src)
    | .empty => .error (.operandShape .render)
    | .init _ _ => .error (.operandShape .render)
  | .reset =>
    match c.ops with
    | .empty => .ok .reset
    | .init _ _ => .error (.operandShape .reset)
    | .render _ _ => .error (.operandShape .reset)
  | .unrecognised => .ok (.unrecognised c.word)

/-- The generator a mode code selects (30_encoding.md R79). -/
def decodeMode (m : ModeBits) : Except DecodeError Instr :=
  if m = 0b000#3 then .ok .saw
  else if m = 0b001#3 then .ok .pulse
  else if m = 0b010#3 then .ok .supersaw
  else if m = 0b011#3 then .ok .fm2op
  else if m = 0b100#3 then .ok .pdfold
  else .error (.reservedMode m)

/-- An encoded instruction: a command on the command port, or the mode code of a sample step. -/
inductive Encoded where
  | command (c : Command)
  | mode (m : ModeBits)
deriving DecidableEq, Repr

/-- The decoder over both formats of spec/opcode_table.json. -/
def decode : Encoded → Except DecodeError Instr
  | .command c => decodeCommand c
  | .mode m => decodeMode m

/-- The encoder, from the table of 30_encoding.md R72 and that of R79. -/
def encode : Instr → Encoded
  | .init sampleRate off => .command { word := 0x00000001#32, ops := .init sampleRate off }
  | .render n src => .command { word := 0x00000002#32, ops := .render n src }
  | .reset => .command { word := 0x00000010#32, ops := .empty }
  | .unrecognised w => .command { word := w, ops := .empty }
  | .saw => .mode 0b000#3
  | .pulse => .mode 0b001#3
  | .supersaw => .mode 0b010#3
  | .fm2op => .mode 0b011#3
  | .pdfold => .mode 0b100#3

/-- A row of spec/opcode_table.json as its columns state it: a word matches when `word &&& mask = value`. -/
structure OpcodeRow where
  mnemonic : String
  value : Nat
  mask : Nat
deriving DecidableEq, Repr

/-- The row of spec/opcode_table.json a constructor stands for. -/
def opcodeRow : Instr → OpcodeRow
  | .init _ _ => ⟨"INIT", 0x00000001, 0xFFFFFFFF⟩
  | .render _ _ => ⟨"RENDER", 0x00000002, 0xFFFFFFFF⟩
  | .reset => ⟨"RESET", 0x00000010, 0xFFFFFFFF⟩
  | .unrecognised _ => ⟨"UNRECOGNISED", 0x00000000, 0x00000000⟩
  | .saw => ⟨"SAW", 0, 7⟩
  | .pulse => ⟨"PULSE", 1, 7⟩
  | .supersaw => ⟨"SUPERSAW", 2, 7⟩
  | .fm2op => ⟨"FM2OP", 3, 7⟩
  | .pdfold => ⟨"PDFOLD", 4, 7⟩

/-- The bits of an encoded instruction as one number, bit 0 the least significant. -/
def Encoded.number : Encoded → Nat
  | .command c => c.word.toNat
  | .mode m => m.toNat

/-- A command word serialised little-endian (20_memory.md R53; log 18). -/
def wordToBytes (w : CmdWord) : List Byte :=
  [w.extractLsb' 0 8, w.extractLsb' 8 8, w.extractLsb' 16 8, w.extractLsb' 24 8]

/-- The command word the next four bytes hold, with the rest of them; total on any bytes. -/
def wordOfBytes : List Byte → Except DecodeError (CmdWord × List Byte)
  | b0 :: b1 :: b2 :: b3 :: rest => .ok (b3 ++ b2 ++ b1 ++ b0, rest)
  | [] => .error .shortWord
  | [_] => .error .shortWord
  | [_, _] => .error .shortWord
  | [_, _, _] => .error .shortWord

/-- The decoder on a serialised word and its operand record. -/
def decodeBytes (bytes : List Byte) (ops : OperandRecord) : Except DecodeError (Instr × List Byte) :=
  match wordOfBytes bytes with
  | .error e => .error e
  | .ok (w, rest) =>
    match decodeCommand { word := w, ops := ops } with
    | .error e => .error e
    | .ok i => .ok (i, rest)

/-- A value serialised little-endian, "least significant byte first" (20_memory.md R53; log 18). -/
def f64ToBytes (x : F64) : List Byte :=
  [x.bits.extractLsb' 0 8, x.bits.extractLsb' 8 8, x.bits.extractLsb' 16 8, x.bits.extractLsb' 24 8,
   x.bits.extractLsb' 32 8, x.bits.extractLsb' 40 8, x.bits.extractLsb' 48 8, x.bits.extractLsb' 56 8]

/-- The value eight little-endian bytes hold. -/
def f64OfBytes : List Byte → Option F64
  | [b0, b1, b2, b3, b4, b5, b6, b7] => some ⟨b7 ++ b6 ++ b5 ++ b4 ++ b3 ++ b2 ++ b1 ++ b0⟩
  | _ => none

/-- The datum whose bits are all zero, +0.0. -/
def zeroF64 : F64 := ⟨0#64⟩

/-- The operand record of zeros of a kind's shape: what a word alone is completed with (log 17). -/
def zeroRecord : CmdKind → OperandRecord
  | .init => .init zeroF64 (.fill zeroF64)
  | .render =>
    .render 0
      { mode := .const zeroF64, freq := .const zeroF64, gain := .const zeroF64, pulseWidth := .const zeroF64,
        detune := .const zeroF64, fmIndex := .const zeroF64, timbre := .const zeroF64 }
  | .reset => .empty
  | .unrecognised => .empty

/-- The command a word alone stands for: that word with an operand record of zeros (log 17). -/
def commandOfWord (w : CmdWord) : Command := { word := w, ops := zeroRecord (cmdKind w) }

/-- Whether a table row of `nbits` bits is one of format MODE: the mode code is 3 bits, one byte in whole bytes; every command
word is 32 bits (30_encoding.md R71, R78; log 17). -/
def isModeWidth (nbits : Nat) : Bool := decide (1 ≤ nbits ∧ nbits ≤ 8)

/-- The instruction the decoder reads from a row's bits: a mode code for a one-byte row, whose upper five bits are zero, and
otherwise a command word with an operand record of zeros (log 17). -/
def decodeTableWord (nbits w : Nat) : Option Instr :=
  if isModeWidth nbits then
    if w < 8 then (decodeMode (BitVec.ofNat 3 w)).toOption else none
  else
    if w < 2 ^ 32 then (decodeCommand (commandOfWord (BitVec.ofNat 32 w))).toOption else none

end Sys2Proof
end

