-- ==== Sys2Proof/Config.lean ====
section
/-! DEFINITION. What an implementation fixes and the spec leaves open (00_scope.md R6; 92_eei_decisions.md, "Parameters
left OPEN"), each a constant without a body: no proof can see a value of it. -/

namespace Sys2Proof

/-- SIN, the sine used by modes 3 and 4: "a total function NUM -> NUM" (00_scope.md R6; D2; log 3). -/
opaque Config.sin : F64 → F64

/-- The implementation's choice of FREQ_FLOOR for a sample rate (D5; log 5). Machine/Operands.lean holds it to its
constraint 0 < FREQ_FLOOR <= 0.45·SR. -/
opaque Config.freqFloor : F64 → F64

/-- One less than NMAX (D9). -/
opaque Config.nmaxPred : Nat

/-- NMAX, the largest block length: "natural, >= 1" (00_scope.md R6; D9; log 6). -/
def Config.nmax : Nat := Config.nmaxPred + 1

/-- The bit pattern an invalid or NaN-operand operation draws its NaN from (log 2). Machine/Binary64.lean makes a quiet NaN
of it. -/
opaque Config.nanPattern : FpOp → F64 → F64 → BitVec 64

/-- Whether `max(a, b)` returns a where neither operand is the larger: which zero "max(-0.0, 0) may return" (40_primitives.md
R103; U12; log 7). -/
opaque Config.maxPicksFirst : F64 → F64 → Bool

/-- The same for `min(a, b)` (log 7). -/
opaque Config.minPicksFirst : F64 → F64 → Bool

/-- What floor answers for an infinity or a NaN, to which 00_scope.md R9 gives no value (log 23). -/
opaque Config.floorNonFinite : F64 → F64

/-- The two open functions, as the argument "a model is a function of" (92_eei_decisions.md; 43_engine.md R197). The
generators and the sample step take it as an argument, so that a statement or a test may fix it. -/
structure Params where
  sin : F64 → F64
  freqFloor : F64 → F64

/-- The parameters of the machine. -/
def Config.params : Params := { sin := Config.sin, freqFloor := Config.freqFloor }

end Sys2Proof
end

