-- ==== Sys2Proof/Machine/Binary64.lean ====
section
/-! DEFINITION. IEEE 754 binary64 arithmetic on NUM, rounded to nearest, ties to even (00_scope.md R7, R8, R9; D1; log 1).

Every finite binary64 value is a whole number of units of 2^-1074, so a value is an integer (`F64.val`), an exact result is
an integer or a ratio of two, and one function, `F64.roundMag`, narrows it. The operations are irreducible, so that the
elaborator never runs one while it compares two terms; the kernel and `unfold` are not held by that. -/

namespace Sys2Proof

namespace F64

/-! ## The fields of a datum -/

/-- The sign bit. -/
def sgn (x : F64) : Bool := decide (2 ^ 63 ≤ x.bits.toNat)

/-- The 63 bits below the sign, as a number: 2^52 times the biased exponent, plus the fraction. -/
def mag (x : F64) : Nat := x.bits.toNat % 2 ^ 63

/-- The magnitude bits of an infinity. -/
def infMag : Nat := 2047 * 2 ^ 52

/-- `isFinite(x)`: "true unless x is NaN or an infinity" (00_scope.md R9). -/
def isFinite (x : F64) : Bool := decide (x.mag < infMag)

/-- x is an infinity. -/
def isInf (x : F64) : Bool := decide (x.mag = infMag)

/-- x is a NaN. -/
def isNaN (x : F64) : Bool := decide (infMag < x.mag)

/-- How many units of 2^-1074 magnitude bits `c` stand for: the fraction alone in the lowest binade, else the significand with
its leading one, scaled by the exponent. -/
def magUnits (c : Nat) : Nat :=
  if c / 2 ^ 52 = 0 then c % 2 ^ 52 else (2 ^ 52 + c % 2 ^ 52) * 2 ^ (c / 2 ^ 52 - 1)

/-- How many units make 1. -/
@[irreducible] def unitScale : Nat := 2 ^ 1074

/-- The value of x in units of 2^-1074. Exact for a finite x; an infinity gets a value beyond every finite one, so that the
comparisons below order it rightly. -/
def val (x : F64) : Int := if x.sgn then -(magUnits x.mag : Int) else (magUnits x.mag : Int)

/-- The datum with the given sign and magnitude bits. -/
@[irreducible] def pack (neg : Bool) (c : Nat) : F64 := ⟨BitVec.ofNat 64 ((if neg then 2 ^ 63 else 0) + c)⟩

/-! ## Rounding -/

/-- The exponent of the spacing of binary64 numbers around a magnitude of t units (t at least the magnitude's floor). -/
def spacing (t : Nat) : Nat := Nat.log2 t - 52

/-- p / d to the nearest whole number, ties to even (d positive). -/
def roundHalfEven (p d : Nat) : Nat :=
  if d < 2 * (p % d) ∨ (2 * (p % d) = d ∧ p / d % 2 = 1) then p / d + 1 else p / d

/-- The magnitude bits of p / q units (q positive) rounded to nearest, ties to even, with overflow to infinity
(00_scope.md R7). Adding the rounded significand to the shifted exponent lets a carry move into the exponent. -/
@[irreducible] def roundMag (p q : Nat) : Nat :=
  let k := spacing (p / q)
  Nat.min (k * 2 ^ 52 + roundHalfEven p (q * 2 ^ k)) infMag

/-- The quiet NaN an operation returns: its sign and payload are left open (log 2). -/
def nan (op : FpOp) (x y : F64) : F64 := ⟨Config.nanPattern op x y ||| 0x7FF8000000000000#64⟩

/-! ## Constants (00_scope.md R8) -/

/-- The binary64 number nearest to p / q (q positive). -/
@[irreducible] def ofRatio (p q : Nat) : F64 := pack false (roundMag (p * unitScale) q)

/-- `real(k)`, the binary64 value of an integer (00_scope.md R10). -/
@[irreducible] def ofInt (k : Int) : F64 := pack (decide (k < 0)) (roundMag (k.natAbs * unitScale) 1)

/-- +0.0 -/
def zero : F64 := ofInt 0

/-- The constant 1. -/
def one : F64 := ofInt 1

/-- The constant -1. -/
def negOne : F64 := ofInt (-1)

/-- The constant 2. -/
def two : F64 := ofInt 2

/-- The constant 0.5. -/
def half : F64 := ofRatio 1 2

/-- The binary64 number nearest to π, from its decimal expansion (00_scope.md R8; log 19). -/
def piNearest : F64 :=
  ofRatio 314159265358979323846264338327950288419716939937510 100000000000000000000000000000000000000000000000000

/-! ## The operations of 00_scope.md R7 -/

/-- x with its sign inverted. -/
@[irreducible] def neg (x : F64) : F64 := pack (!x.sgn) x.mag

/-- `x + y`. -/
@[irreducible] def add (x y : F64) : F64 :=
  if x.isNaN || y.isNaN then nan .add x y
  else if x.isInf then (if y.isInf && (x.sgn != y.sgn) then nan .add x y else x)
  else if y.isInf then y
  else if x.val + y.val = 0 then pack (x.sgn && y.sgn) 0
  else pack (decide (x.val + y.val < 0)) (roundMag (x.val + y.val).natAbs 1)

/-- `x - y`, the sum of x and the negated y. -/
@[irreducible] def sub (x y : F64) : F64 := add x y.neg

/-- `x * y`. -/
@[irreducible] def mul (x y : F64) : F64 :=
  if x.isNaN || y.isNaN then nan .mul x y
  else if x.isInf || y.isInf then
    (if x.mag = 0 ∨ y.mag = 0 then nan .mul x y else pack (x.sgn != y.sgn) infMag)
  else pack (x.sgn != y.sgn) (roundMag (magUnits x.mag * magUnits y.mag) unitScale)

/-- `x / y`. -/
@[irreducible] def div (x y : F64) : F64 :=
  if x.isNaN || y.isNaN then nan .div x y
  else if x.isInf then (if y.isInf then nan .div x y else pack (x.sgn != y.sgn) infMag)
  else if y.isInf then pack (x.sgn != y.sgn) 0
  else if y.mag = 0 then (if x.mag = 0 then nan .div x y else pack (x.sgn != y.sgn) infMag)
  else pack (x.sgn != y.sgn) (roundMag (magUnits x.mag * unitScale) (magUnits y.mag))

/-! ## Comparisons and the exact functions of 00_scope.md R9 -/

/-- `x < y`: false when either is a NaN; the two zeros are equal. -/
def lt (x y : F64) : Bool := !x.isNaN && !y.isNaN && decide (x.val < y.val)

/-- `x <= y`. -/
def le (x y : F64) : Bool := !x.isNaN && !y.isNaN && decide (x.val ≤ y.val)

/-- `abs(x)`: "x with its sign cleared" (00_scope.md R9). -/
@[irreducible] def abs (x : F64) : F64 := pack false x.mag

/-- The largest integer not above a finite x. -/
def floorInt (x : F64) : Int := x.val / (unitScale : Int)

/-- `floor(x)` (00_scope.md R9); a zero keeps its sign (log 15), and what an infinity or a NaN gives is open (log 23). -/
@[irreducible] def floor (x : F64) : F64 :=
  if x.isFinite then
    (if x.floorInt = 0 then pack x.sgn 0 else ofInt x.floorInt)
  else Config.floorNonFinite x

/-- `max(a, b)` (00_scope.md R9). Where neither is larger, which of the two comes back is open (40_primitives.md R103; log 7). -/
@[irreducible] def max (a b : F64) : F64 :=
  if a.lt b then b else if b.lt a then a else if a = b then a
  else if Config.maxPicksFirst a b then a else b

/-- `min(a, b)` (00_scope.md R9; log 7). -/
@[irreducible] def min (a b : F64) : F64 :=
  if a.lt b then a else if b.lt a then b else if a = b then a
  else if Config.minPicksFirst a b then a else b

/-- `clamp(x, lo, hi) = min(max(x, lo), hi)` (00_scope.md R9). -/
def clamp (x lo hi : F64) : F64 := (x.max lo).min hi

/-- `0 <= x < 1` for a finite x: "unit interval" (00_scope.md section 8; 10_state.md R25). -/
def inUnit (x : F64) : Bool := x.isFinite && zero.le x && x.lt one

end F64

end Sys2Proof
end

