-- ==== Sys2Proof/Machine/State.lean ====
section
/-! DEFINITION. The state of one core instance (10_state.md R20), the sequencing state and locals of a RENDER in progress
(R27, R31, R32), the host's ports (R31, R33, R34, R36), and the reasons a step can stop. Plain data throughout. -/

namespace Sys2Proof.Machine

/-- FAULT, the sticky fault cause (10_state.md R30): its four 2-bit codes, in ascending code. -/
inductive FaultCode where
  | noFault
  | blockLength
  | arrayLength
  | nonFinite
deriving DecidableEq, Repr

/-- FINFO (10_state.md R30): the offending parameter's index, 7 when there is none, and the sample index, 0 when there is
none. -/
structure FaultInfo where
  param : Fin 8
  index : Nat
deriving DecidableEq, Repr

/-- The status a command returns (60_exceptions.md R221), in ascending code. FAULTED "carries the values of FAULT and
FINFO". -/
inductive Status where
  | ok
  | initRejected
  | silentNotInit
  | ignored
  | faulted (code : FaultCode) (info : FaultInfo)
deriving DecidableEq, Repr

/-- What a command hands back: its status and, for a RENDER, keepAlive (10_state.md R33). -/
structure Response where
  status : Status
  keepAlive : Option Bool
deriving DecidableEq, Repr

/-- A RENDER in progress: its operands and its sample index (10_state.md R27, R31). -/
structure Progress where
  len : Nat
  src : Sources
  index : Nat
deriving DecidableEq, Repr

/-- The values local to one sample step (43_engine.md R186; 10_state.md R32): the mode code, the start phase and increment,
the clamped parameters, and the generator's result. -/
structure Sample where
  m : ModeBits
  p0 : F64
  dt : F64
  f : F64
  g : F64
  pw : F64
  det : F64
  fmi : F64
  tim : F64
  x : F64
deriving DecidableEq, Repr

/-- The output block: (frame, value) pairs, frames strictly rising, one pair for every frame written and none for another
(20_memory.md R50, R52; log 12). -/
abbrev Memory := List (Nat × F64)

/-- The state. The first nine fields are the record of 10_state.md R20; INVENTORY.md lists each field's rule and reset
value. -/
structure State where
  phase : F64
  phase2 : F64
  ssp : Seven F64
  dcX : F64
  dcY : F64
  sr : F64
  initd : Bool
  fault : FaultCode
  finfo : FaultInfo
  rend : Option Progress
  smp : Sample
  out : Memory
  cmds : List Command
  resp : Option Response
  nmax : Nat
deriving DecidableEq, Repr

/-- Why the machine stops. -/
inductive Fault where
  /-- Raised by the start of a sample step whose resolved parameter is missing (an index outside its array) or not finite.
  43_engine.md R182 and R184 exclude both before the first sample step, so no run reaches it. Safe (log 14). -/
  | renderOperands
deriving DecidableEq, Repr

/-- Why an instruction has no meaning. -/
inductive Refusal where
  /-- Raised by exec for an instruction without a meaning yet. Safe. -/
  | notModelled (mnemonic : String)
  /-- Raised by step for a command whose operand record has not the shape its word requires: "not a command of this spec"
  (30_encoding.md R70; 93_implementation_defined.md U9). Safe (log 11). -/
  | operandShape
  /-- Raised by step for the mode codes 5, 6 and 7, which "cannot arise" (30_encoding.md R78), so no run reaches it. Safe
  (log 16). -/
  | reservedMode
deriving DecidableEq, Repr

/-- The sample-step locals outside a sample step (log 9). -/
def Sample.idle : Sample :=
  { m := 0#3, p0 := ⟨0#64⟩, dt := ⟨0#64⟩, f := ⟨0#64⟩, g := ⟨0#64⟩, pw := ⟨0#64⟩, det := ⟨0#64⟩, fmi := ⟨0#64⟩,
    tim := ⟨0#64⟩, x := ⟨0#64⟩ }

/-- The machine at power-on (10_state.md R37; 70_reset_and_hazards.md R250): INITD = 0, FAULT = 0, FINFO = (7, 0), nothing in
progress, nothing written, nothing received. The registers R37 gives no value stand at +0.0 (DESIGN CHOICE, log 8). -/
def State.reset : State :=
  { phase := ⟨0#64⟩, phase2 := ⟨0#64⟩, ssp := .fill ⟨0#64⟩, dcX := ⟨0#64⟩, dcY := ⟨0#64⟩, sr := ⟨0#64⟩,
    initd := false, fault := .noFault, finfo := { param := 7, index := 0 },
    rend := none, smp := .idle, out := [], cmds := [], resp := none, nmax := Config.nmax }

end Sys2Proof.Machine
end

