-- ==== Sys2Proof/Machine/Ops.lean ====
section
/-! DEFINITION. The named operations over the output block, the parameter arrays and the registers, and the machine's one
exception, `raise Fault` (60_exceptions.md R224). -/

namespace Sys2Proof.Machine

/-! ## The spaces of 20_memory.md R50 -/

/-- The canonical form of the output block: frames strictly rising (log 12). -/
def Memory.wf : Memory → Bool
  | [] => true
  | [_] => true
  | a :: b :: rest => decide (a.1 < b.1) && Memory.wf (b :: rest)

/-- What frame n holds: no value where no RENDER has written it. -/
def Memory.read : Memory → Nat → Option F64
  | [], _ => none
  | (k, v) :: rest, n => if k = n then some v else Memory.read rest n

/-- `MemWrite(OUT, n, v)` on the block (20_memory.md R52), keeping its canonical form. -/
def Memory.write : Memory → Nat → F64 → Memory
  | [], n, v => [(n, v)]
  | (k, u) :: rest, n, v =>
    if n < k then (n, v) :: (k, u) :: rest
    else if n = k then (n, v) :: rest
    else (k, u) :: Memory.write rest n v

/-- `MemWrite(OUT, n, v)` (20_memory.md R52). -/
def State.memWrite (s : State) (n : Nat) (v : F64) : State := { s with out := s.out.write n v }

/-- `MemRead(PARAM[p], n)` (20_memory.md R51); none where the array has no element n. -/
def memRead (src : Sources) (p : Param) (n : Nat) : Option F64 := (src.get p).arr[n]?

/-- `len[p]` (10_state.md R31). -/
def arrayLen (src : Sources) (p : Param) : Nat := (src.get p).arr.length

/-! ## The response port -/

/-- The command ends and hands back a status and, for a RENDER, keepAlive (10_state.md R33; 60_exceptions.md R220). -/
def State.respond (s : State) (status : Status) (keepAlive : Option Bool) : State :=
  { s with resp := some { status := status, keepAlive := keepAlive } }

/-- The answer of a faulted core (43_engine.md R189): FAULTED with FAULT and FINFO, nothing else touched. -/
def State.respondFaulted (s : State) (keepAlive : Option Bool) : State :=
  s.respond (.faulted s.fault s.finfo) keepAlive

/-- A command of `body`, on a core that is not faulted; a faulted core answers FAULTED (43_engine.md R189). -/
def State.unlessFaulted (s : State) (keepAlive : Option Bool) (body : State) : State :=
  if s.fault = .noFault then body else s.respondFaulted keepAlive

/-! ## Taking the exception -/

/-- `raise Fault(code, (param, index))` (60_exceptions.md R224): FAULT and FINFO are written, the command returns FAULTED with
keepAlive = false, and the rest is "exactly the state before the command". There is no return from it (R227). -/
def State.raiseFault (s : State) (code : FaultCode) (param : Fin 8) (index : Nat) : State :=
  { s with fault := code, finfo := { param := param, index := index } }.respondFaulted (some false)

/-! ## Register writes -/

/-- The writes RESET and INIT share: `phase` and `phase2` to +0.0, and the supersaw phases to `off`
(43_engine.md R190, R194). -/
def State.setPhases (s : State) (off : Seven F64) : State :=
  { s with phase := .zero, phase2 := .zero, ssp := off }

/-- The DC blocker's state, "pair (previous input, previous output)" (10_state.md R24). -/
def State.setDc (s : State) (x y : F64) : State := { s with dcX := x, dcY := y }

/-- The generator's result, handed to the rest of the sample step (41_generators.md preamble). -/
def State.setResult (s : State) (x : F64) : State := { s with smp := { s.smp with x := x } }

/-- N frames of silence: +0.0 in frames 0..N-1, ascending (43_engine.md R183). -/
def State.writeSilence (s : State) : Nat → State
  | 0 => s
  | n + 1 => (s.writeSilence n).memWrite n .zero

end Sys2Proof.Machine
end

