-- ==== Sys2Proof/Machine/Operands.lean ====
section
/-! DEFINITION. How a sample step gets its operands: the resolver, the clamps, the increment and the mode code
(40_primitives.md sections 1 to 3; 30_encoding.md R78), and the checks a RENDER makes of them (43_engine.md R182, R184). -/

namespace Sys2Proof.Machine

/-! ## Constants, each the binary64 number nearest to its literal (00_scope.md R8) -/

/-- 0.45, the share of the sample rate a frequency may reach (40_primitives.md R102). -/
def freqShare : F64 := .ofRatio 45 100

/-- 0.05, the least pulse width (40_primitives.md R104). -/
def pwMin : F64 := .ofRatio 5 100

/-- 0.95, the greatest pulse width (40_primitives.md R104). -/
def pwMax : F64 := .ofRatio 95 100

/-! ## Resolver -/

/-- `Resolve(p, n)` (40_primitives.md R100): the array's element when its length exceeds 1, else the block-constant value. No
value where that element does not exist, which R182 of 43_engine.md excludes. -/
def resolve (src : Sources) (p : Param) (n : Nat) : Option F64 :=
  if 1 < arrayLen src p then memRead src p n else some (src.get p).kval

/-! ## Clamps -/

/-- The upper frequency bound `0.45 * S.SR` (40_primitives.md R102). -/
def freqBound (sr : F64) : F64 := freqShare.mul sr

/-- FREQ_FLOOR at a sample rate: the implementation's choice where it meets 0 < FREQ_FLOOR <= 0.45·SR, else the bound itself
(00_scope.md R6; D5; log 5). -/
def freqFloor (P : Params) (sr : F64) : F64 :=
  if F64.zero.lt (P.freqFloor sr) && (P.freqFloor sr).le (freqBound sr) then P.freqFloor sr else freqBound sr

/-- `ClampFreq(x)` (40_primitives.md R102). -/
def clampFreq (P : Params) (sr x : F64) : F64 :=
  if (freqBound sr).lt x then freqBound sr
  else if x.le .zero then freqFloor P sr
  else x

/-- `ClampUnit(x)` (40_primitives.md R103). -/
def clampUnit (x : F64) : F64 := x.clamp .zero .one

/-- `ClampPW(x)` (40_primitives.md R104). -/
def clampPW (x : F64) : F64 := x.clamp pwMin pwMax

/-- `Inc(f)` (40_primitives.md R105). -/
def inc (sr f : F64) : F64 := f.div sr

/-- `ModeCode(v)` (30_encoding.md R78), an integer of {0, 1, 2, 3, 4}. -/
def modeCode (v : F64) : ModeBits := BitVec.ofInt 3 (Min.min (Max.max v.floorInt 0) 4)

/-! ## The checks of a RENDER -/

/-- Whether parameter p's array breaks the render contract "either a single value or an array of length N"
(43_engine.md R182 (b)). -/
def badArray (n : Nat) (src : Sources) (p : Param) : Bool := decide (1 < arrayLen src p ∧ arrayLen src p ≠ n)

/-- The lowest parameter whose array has a wrong length (43_engine.md R182 (b)). -/
def firstBadArray (n : Nat) (src : Sources) : Option Param := Param.all.find? (badArray n src)

/-- Whether parameter p resolves to a NaN or an infinity in sample n (43_engine.md R184). -/
def badValue (src : Sources) (n : Nat) (p : Param) : Bool :=
  match resolve src p n with
  | some v => !v.isFinite
  | none => false

/-- The first non-finite value of sample n, in ascending p. -/
def badValueIn (src : Sources) (n : Nat) : Option (Param × Nat) :=
  (Param.all.find? (badValue src n)).map fun p => (p, n)

/-- The first non-finite value of a block of N samples, "in order of ascending n and then ascending p" (43_engine.md R184). -/
def firstNonFinite (src : Sources) : Nat → Option (Param × Nat)
  | 0 => none
  | n + 1 => (firstNonFinite src n).or (badValueIn src n)

end Sys2Proof.Machine
end

