-- ==== Sys2Proof/Machine/Primitives.lean ====
section
/-! DEFINITION. The oscillator's leaf functions: phase accumulator, PolyBLEP corrector, wrap helpers, soft clipper and DC
blocker (40_primitives.md sections 3 to 5; 42_postprocess.md). -/

namespace Sys2Proof.Machine

/-- `TWO_PI`: 2 times the binary64 number nearest to π (00_scope.md R8). -/
def twoPi : F64 := F64.two.mul .piNearest

/-- R, the DC blocker's pole, 0.995 (42_postprocess.md R162). -/
def dcPole : F64 := .ofRatio 995 1000

/-- The soft clipper's constant 1.5 (42_postprocess.md R160). -/
def clipGain : F64 := .ofRatio 15 10

/-- `Advance(ph, dt)` (40_primitives.md R106): the sum, less exactly 1 where it reaches 1. -/
def advance (ph dt : F64) : F64 :=
  if F64.one.le (ph.add dt) then (ph.add dt).sub .one else ph.add dt

/-- The first branch of PolyBLEP, `((u + u) - u * u) - 1` (40_primitives.md R108). -/
def blepRise (u : F64) : F64 := ((u.add u).sub (u.mul u)).sub .one

/-- The second branch of PolyBLEP, `((u * u + u) + u) + 1` (40_primitives.md R108). -/
def blepFall (u : F64) : F64 := (((u.mul u).add u).add u).add .one

/-- `PolyBLEP(t, dt)` (40_primitives.md R108); the tests are taken in the order written (D29). -/
def polyBlep (t dt : F64) : F64 :=
  if t.lt dt then blepRise (t.div dt)
  else if (F64.one.sub dt).lt t then blepFall ((t.sub .one).div dt)
  else .zero

/-- `WrapNeg(x)` (40_primitives.md R110). -/
def wrapNeg (x : F64) : F64 := if x.lt .zero then x.add .one else x

/-- `Frac(x) = x - floor(x)` (40_primitives.md R111); for an infinite or NaN x, which in a RENDER only a SIN that answers one
can give, the floor is open (log 23). -/
def frac (x : F64) : F64 := x.sub x.floor

/-- `SoftClip(x) = x / (1 + 1.5 * abs(x))` (42_postprocess.md R160). -/
def softClip (x : F64) : F64 := x.div (F64.one.add (clipGain.mul x.abs))

/-- The DC blocker's output `(x - S.dcX) + (R * S.dcY)` (42_postprocess.md R162). -/
def dcOutput (dcX dcY x : F64) : F64 := (x.sub dcX).add (dcPole.mul dcY)

end Sys2Proof.Machine
end

