-- ==== Sys2Proof/Machine/Generators.lean ====
section
/-! DEFINITION. The five generator instructions (41_generators.md). Each reads the sample step's operands in `smp`, hands its
result x back there, and writes no register but those 10_state.md R26 assigns to its mode. -/

namespace Sys2Proof.Machine

/-! ## Constants (00_scope.md R8) -/

/-- 0.003, the least detune spread (41_generators.md R133). -/
def spreadBase : F64 := .ofRatio 3 1000

/-- 0.02, the spread a full detune adds (41_generators.md R133). -/
def spreadRange : F64 := .ofRatio 2 100

/-- 0.05, the least breakpoint (41_generators.md R141). -/
def warpBase : F64 := .ofRatio 5 100

/-- 0.9, the breakpoint's range (41_generators.md R141). -/
def warpRange : F64 := .ofRatio 9 10

/-! ## Mode 0, SAW (R131) -/

/-- `Saw(ph, dt) = ((2 * ph) - 1) - PolyBLEP(ph, dt)` (41_generators.md R131). -/
def saw (ph dt : F64) : F64 := ((F64.two.mul ph).sub .one).sub (polyBlep ph dt)

/-- SAW's effect: x = Saw(p0, dt). -/
def sawOp (s : State) : State := s.setResult (saw s.smp.p0 s.smp.dt)

/-! ## Mode 1, PULSE (R132) -/

/-- The naive pulse (41_generators.md R132). -/
def naivePulse (p0 pw : F64) : F64 := if p0.lt pw then .one else .negOne

/-- `(naive + PolyBLEP(p0, dt)) - PolyBLEP(WrapNeg(p0 - pw), dt)` (41_generators.md R132). -/
def pulse (p0 dt pw : F64) : F64 :=
  ((naivePulse p0 pw).add (polyBlep p0 dt)).sub (polyBlep (wrapNeg (p0.sub pw)) dt)

/-- PULSE's effect. -/
def pulseOp (s : State) : State := s.setResult (pulse s.smp.p0 s.smp.dt s.smp.pw)

/-! ## Mode 2, SUPERSAW (R133 to R135) -/

/-- `spread = 0.003 + det * 0.02` (41_generators.md R133). -/
def spread (det : F64) : F64 := spreadBase.add (det.mul spreadRange)

/-- `fk = f * (1 + real(k) * spread)`, not clamped (41_generators.md R134, R136 (a)). -/
def voiceFreq (f spr : F64) (k : Int) : F64 := f.mul (F64.one.add ((F64.ofInt k).mul spr))

/-- `dtk = fk / S.SR` (41_generators.md R134). -/
def voiceInc (sr f spr : F64) (k : Int) : F64 := (voiceFreq f spr k).div sr

/-- The seven voices' saws, each "at the voice's phase before it advances" (41_generators.md R134). -/
def voiceSaws (sr f det : F64) (ssp : Seven F64) : Seven F64 :=
  ssp.mapStep fun k ph => saw ph (voiceInc sr f (spread det) k)

/-- The seven voices' phases after the step (41_generators.md R134). -/
def voiceAdvance (sr f det : F64) (ssp : Seven F64) : Seven F64 :=
  ssp.mapStep fun k ph => advance ph (voiceInc sr f (spread det) k)

/-- The mean, summed "ascending k, starting from +0.0" (41_generators.md R135). -/
def mean (xs : Seven F64) : F64 := (xs.toList.foldl F64.add .zero).div (.ofInt 7)

/-- SUPERSAW's effect (41_generators.md R133 to R135). -/
def supersawOp (s : State) : State :=
  { s.setResult (mean (voiceSaws s.sr s.smp.f s.smp.det s.ssp)) with
    ssp := voiceAdvance s.sr s.smp.f s.smp.det s.ssp }

/-! ## Mode 3, FM2OP (R137 to R139) -/

/-- `r = 0.5 + tim * 6.0` (41_generators.md R137). -/
def fmRatio (tim : F64) : F64 := F64.half.add (tim.mul (.ofInt 6))

/-- `dt2 = f2 / S.SR` with `f2 = ClampFreq(f * r)` (41_generators.md R137). Where `f * r` underflows to 0 (f = 2^-1074, r = 0.5)
ClampFreq gives FREQ_FLOOR, though R137 derives that it is never used here (log 20). -/
def fmInc (P : Params) (sr f tim : F64) : F64 := (clampFreq P sr (f.mul (fmRatio tim))).div sr

/-- `idx = fmi * (2 + 10 * tim)` (41_generators.md R137). -/
def fmDepth (fmi tim : F64) : F64 := fmi.mul (F64.two.add ((F64.ofInt 10).mul tim))

/-- `cp = p0 + (modv * idx) * dt` (41_generators.md R138). -/
def fmCarrier (P : Params) (p0 q0 dt fmi tim : F64) : F64 :=
  p0.add (((P.sin (twoPi.mul q0)).mul (fmDepth fmi tim)).mul dt)

/-- `x = SoftClip(SIN(TWO_PI * Frac(cp)) * (1 + 2 * fmi))` (41_generators.md R138). -/
def fm2op (P : Params) (p0 q0 dt fmi tim : F64) : F64 :=
  softClip ((P.sin (twoPi.mul (frac (fmCarrier P p0 q0 dt fmi tim)))).mul (F64.one.add (F64.two.mul fmi)))

/-- FM2OP's effect (41_generators.md R137 to R139). -/
def fm2opOp (P : Params) (s : State) : State :=
  { s.setResult (fm2op P s.smp.p0 s.phase2 s.smp.dt s.smp.fmi s.smp.tim) with
    phase2 := advance s.phase2 (fmInc P s.sr s.smp.f s.smp.tim) }

/-! ## Mode 4, PDFOLD (R141, R142) -/

/-- `a = 0.05 + tim * 0.9` (41_generators.md R141). -/
def breakpoint (tim : F64) : F64 := warpBase.add (tim.mul warpRange)

/-- The warped phase w for breakpoint a (41_generators.md R141). -/
def warp (p0 a : F64) : F64 :=
  if p0.lt a then (p0.div a).mul .half
  else F64.half.add (((p0.sub a).div (F64.one.sub a)).mul .half)

/-- `fo = 2 * (z - floor(z + 0.5))` (41_generators.md R142); it wraps, as C3 settles. -/
def fold (z : F64) : F64 := F64.two.mul (z.sub (z.add .half).floor)

/-- `z = s * amt` with `s = SIN(TWO_PI * w)` and `amt = 1 + fmi * 6` (41_generators.md R142). -/
def foldInput (P : Params) (p0 fmi tim : F64) : F64 :=
  (P.sin (twoPi.mul (warp p0 (breakpoint tim)))).mul (F64.one.add (fmi.mul (.ofInt 6)))

/-- `x = SoftClip(fo)` (41_generators.md R142). -/
def pdfold (P : Params) (p0 fmi tim : F64) : F64 := softClip (fold (foldInput P p0 fmi tim))

/-- PDFOLD's effect. -/
def pdfoldOp (P : Params) (s : State) : State := s.setResult (pdfold P s.smp.p0 s.smp.fmi s.smp.tim)

/-! ## The meanings -/

/-- SAW (41_generators.md R131). -/
def execSaw (s : State) : Host.Outcome State Fault Refusal := .next (sawOp s)

/-- PULSE (41_generators.md R132). -/
def execPulse (s : State) : Host.Outcome State Fault Refusal := .next (pulseOp s)

/-- SUPERSAW (41_generators.md R133 to R136). -/
def execSupersaw (s : State) : Host.Outcome State Fault Refusal := .next (supersawOp s)

/-- FM2OP (41_generators.md R137 to R140). -/
def execFm2op (s : State) : Host.Outcome State Fault Refusal := .next (fm2opOp Config.params s)

/-- PDFOLD (41_generators.md R141 to R143). -/
def execPdfold (s : State) : Host.Outcome State Fault Refusal := .next (pdfoldOp Config.params s)

end Sys2Proof.Machine
end

