-- ==== Sys2Proof/Machine/Samples.lean ====
section
/-! DEFINITION. The sample step of 43_engine.md R186, in three parts: before the generator (resolve, clamp, advance the
primary phase), the generator the mode code selects, and after it (DC blocker, gain, write). -/

namespace Sys2Proof.Machine

/-- `Resolve(p, n)` where it is a finite value, as R182 and R184 of 43_engine.md have checked of every value a sample step
uses. -/
def resolveFinite (src : Sources) (p : Param) (n : Nat) : Option F64 :=
  match resolve src p n with
  | some v => if v.isFinite then some v else none
  | none => none

/-- The seven resolved parameters of sample n (10_state.md R32). -/
structure Resolved where
  mode : F64
  freq : F64
  gain : F64
  pulseWidth : F64
  detune : F64
  fmIndex : F64
  timbre : F64
deriving DecidableEq, Repr

/-- "resolve all seven parameters via ParameterResolver" (43_engine.md R186). -/
def resolveAll (src : Sources) (n : Nat) : Option Resolved :=
  match resolveFinite src .mode n, resolveFinite src .freq n, resolveFinite src .gain n,
      resolveFinite src .pulseWidth n, resolveFinite src .detune n, resolveFinite src .fmIndex n,
      resolveFinite src .timbre n with
  | some m, some f, some g, some pw, some det, some fm, some tim =>
    some { mode := m, freq := f, gain := g, pulseWidth := pw, detune := det, fmIndex := fm, timbre := tim }
  | _, _, _, _, _, _, _ => none

/-- The locals of a sample step that starts at phase p0 (43_engine.md R186). -/
def latch (P : Params) (sr p0 : F64) (r : Resolved) : Sample :=
  { m := modeCode r.mode, p0 := p0, dt := inc sr (clampFreq P sr r.freq), f := clampFreq P sr r.freq,
    g := clampUnit r.gain, pw := clampPW r.pulseWidth, det := clampUnit r.detune, fmi := clampUnit r.fmIndex,
    tim := clampUnit r.timbre, x := .zero }

/-- The part of the sample step before the generator: the locals are set, p0 being the phase "at the start of the step"
(C1), and `S.phase <- Advance(p0, dt)` in every mode (43_engine.md R186). -/
def openSample (P : Params) (s : State) (r : Resolved) : State :=
  { s with
    smp := latch P s.sr s.phase r,
    phase := advance s.phase (inc s.sr (clampFreq P s.sr r.freq)) }

/-- `DCBlock(x)` (42_postprocess.md R162): dcX takes the input and dcY the output. -/
def dcBlock (s : State) : State := s.setDc s.smp.x (dcOutput s.dcX s.dcY s.smp.x)

/-- The part of the sample step after the generator: DC blocker, gain, `MemWrite(OUT, n, y * g)` (43_engine.md R186;
42_postprocess.md R162, R164). -/
def closeSample (s : State) (n : Nat) : State :=
  (dcBlock s).memWrite n ((dcOutput s.dcX s.dcY s.smp.x).mul s.smp.g)

/-- The sample index moves on and the locals end (10_state.md R27, R32). -/
def nextSample (s : State) (pr : Progress) : State :=
  { s with rend := some { pr with index := pr.index + 1 }, smp := .idle }

/-- "A sample step runs exactly one generator, the one whose mode code it computed" (41_generators.md R130). A code above 4
cannot arise (30_encoding.md R78) and selects none. -/
def generate (P : Params) (m : ModeBits) (s : State) : State :=
  if m = 0b000#3 then sawOp s
  else if m = 0b001#3 then pulseOp s
  else if m = 0b010#3 then supersawOp s
  else if m = 0b011#3 then fm2opOp P s
  else if m = 0b100#3 then pdfoldOp P s
  else s

/-- `SampleStep(n)` (43_engine.md R186), with the index moved on. -/
def sampleStep (P : Params) (pr : Progress) (s : State) : Option State :=
  match resolveAll pr.src pr.index with
  | none => none
  | some r =>
    some (nextSample (closeSample (generate P (modeCode r.mode) (openSample P s r)) pr.index) pr)

/-- The RENDER in progress ends: it returns (OK, true), and neither index nor locals outlive it (43_engine.md R187;
10_state.md R27). -/
def finishRender (s : State) : State :=
  { s with rend := none, smp := .idle }.respond .ok (some true)

/-- The sample loop of 43_engine.md R185 over the samples index .. index + k - 1, then the end of the RENDER. -/
def renderLoop (P : Params) : Nat → Progress → State → Host.Outcome State Fault Refusal
  | 0, _, s => .next (finishRender s)
  | k + 1, pr, s =>
    match sampleStep P pr s with
    | none => .fault .renderOperands
    | some t => renderLoop P k { pr with index := pr.index + 1 } t

end Sys2Proof.Machine
end

