-- ==== Sys2Proof/Machine/Commands.lean ====
section
/-! DEFINITION. The four commands (43_engine.md). -/

namespace Sys2Proof.Machine

/-! ## INIT (R190 to R193) -/

/-- A sample rate INIT accepts: finite and > 0 (43_engine.md R191). -/
def rateOk (sampleRate : F64) : Bool := sampleRate.isFinite && F64.zero.lt sampleRate

/-- Offsets INIT accepts: each finite and in [0, 1) (43_engine.md R191). -/
def offsetsOk (off : Seven F64) : Bool := off.toList.all F64.inUnit

/-- The writes of a valid INIT (43_engine.md R192). -/
def createVoice (s : State) (sampleRate : F64) (off : Seven F64) : State :=
  { (s.setPhases off).setDc .zero .zero with sr := sampleRate, initd := true }

/-- INIT on a core that is not faulted (43_engine.md R190). -/
def initBody (s : State) (sampleRate : F64) (off : Seven F64) : State :=
  if rateOk sampleRate && offsetsOk off then (createVoice s sampleRate off).respond .ok none
  else s.respond .initRejected none

/-- INIT (43_engine.md R190 to R193). -/
def execInit (sampleRate : F64) (off : Seven F64) (s : State) : Host.Outcome State Fault Refusal :=
  .next (s.unlessFaulted none (initBody s sampleRate off))

/-! ## RENDER (R181 to R189) -/

/-- A block that passed its checks begins: the sample index starts at 0 (10_state.md R27). -/
def beginRender (s : State) (n : Nat) (src : Sources) : State :=
  { s with rend := some { len := n, src := src, index := 0 } }

/-- RENDER's own procedure (43_engine.md R181), the checks in the order of 60_exceptions.md R226. -/
def renderWith (P : Params) (n : Nat) (src : Sources) (s : State) : Host.Outcome State Fault Refusal :=
  if s.fault ≠ .noFault then .next (s.respondFaulted (some false))
  else if s.nmax < n then .next (s.raiseFault .blockLength 7 0)
  else if s.initd = false then .next ((s.writeSilence n).respond .silentNotInit (some true))
  else
    match firstBadArray n src with
    | some p => .next (s.raiseFault .arrayLength p.index 0)
    | none =>
      match firstNonFinite src n with
      | some (p, k) => .next (s.raiseFault .nonFinite p.index k)
      | none => renderLoop P n { len := n, src := src, index := 0 } (beginRender s n src)

/-- RENDER (43_engine.md R181 to R189). -/
def execRender (n : Nat) (src : Sources) (s : State) : Host.Outcome State Fault Refusal :=
  renderWith Config.params n src s

/-! ## RESET (R194, R195) -/

/-- RESET on a core that is not faulted (43_engine.md R194): ignored before INIT, else the phases go to +0.0 and "not
`dcState`". -/
def resetBody (s : State) : State :=
  if s.initd then (s.setPhases (.fill .zero)).respond .ok none else s.respond .ignored none

/-- RESET (43_engine.md R194, R195). -/
def execReset (s : State) : Host.Outcome State Fault Refusal := .next (s.unlessFaulted none (resetBody s))

/-! ## UNRECOGNISED (R196) -/

/-- UNRECOGNISED (43_engine.md R196): "ignored without fault", whatever the word. -/
def execUnrecognised (_w : CmdWord) (s : State) : Host.Outcome State Fault Refusal :=
  .next (s.unlessFaulted none (s.respond .ignored none))

end Sys2Proof.Machine
end

