-- ==== Sys2Proof/Machine/Dispatch.lean ====
section
/-! DEFINITION. The meaning of each instruction. -/

namespace Sys2Proof.Machine

def exec (i : Instr) (s : State) : Host.Outcome State Fault Refusal :=
  match i with
  | .init sampleRate off => Sys2Proof.Machine.execInit sampleRate off s
  | .render n src => Sys2Proof.Machine.execRender n src s
  | .reset => Sys2Proof.Machine.execReset s
  | .unrecognised w => Sys2Proof.Machine.execUnrecognised w s
  | .saw => Sys2Proof.Machine.execSaw s
  | .pulse => Sys2Proof.Machine.execPulse s
  | .supersaw => Sys2Proof.Machine.execSupersaw s
  | .fm2op => Sys2Proof.Machine.execFm2op s
  | .pdfold => Sys2Proof.Machine.execPdfold s

end Sys2Proof.Machine
end

