-- ==== Sys2Proof/Machine/Step.lean ====
section
/-! DEFINITION. One step of the machine. With no RENDER in progress it takes the next command from the command port and runs
it to completion (43_engine.md R180); with a RENDER in progress it runs that RENDER's next sample step, whose generator is
the instruction its mode code selects (43_engine.md R186; 30_encoding.md R79; log 9). -/

namespace Sys2Proof.Machine

/-- The sample step around its generator: what follows a generator that answered t. The RENDER ends with its last sample. -/
def afterGenerator (pr : Progress) (t : State) : State :=
  let u := nextSample (closeSample t pr.index) pr
  if pr.index + 1 < pr.len then u else finishRender u

/-- The next sample step of the RENDER in progress. -/
def stepSample (s : State) (pr : Progress) : Host.Outcome State Fault Refusal :=
  match resolveAll pr.src pr.index with
  | none => .fault .renderOperands
  | some r =>
    match decodeMode (modeCode r.mode) with
    | .error _ => .refused .reservedMode
    | .ok i =>
      match exec i (openSample Config.params s r) with
      | .next t => .next (afterGenerator pr t)
      | .fault e => .fault e
      | .refused e => .refused e

/-- The next command of the command port; a core with none waits (20_memory.md R56; log 10). -/
def stepCommand (s : State) : Host.Outcome State Fault Refusal :=
  match s.cmds with
  | [] => .next s
  | c :: rest =>
    match decodeCommand c with
    | .error _ => .refused .operandShape
    | .ok i => exec i { s with cmds := rest }

/-- One step. -/
def step (s : State) : Host.Outcome State Fault Refusal :=
  match s.rend with
  | some pr => stepSample s pr
  | none => stepCommand s

/-- A RENDER of one sample whose mode parameter selects code m and whose other parameters are zero: what a generator's code
alone is completed with (log 17). -/
def progressOfMode (m : Nat) : Progress :=
  { len := 1, index := 0,
    src :=
      { mode := .const (.ofInt m), freq := .const zeroF64, gain := .const zeroF64, pulseWidth := .const zeroF64,
        detune := .const zeroF64, fmIndex := .const zeroF64, timbre := .const zeroF64 } }

/-- s with an instruction where step takes its next one: a command word at the head of the command port with nothing in
progress, a mode code as the RENDER in progress (log 17). -/
def State.withFetchWord (s : State) (nbits w : Nat) : State :=
  if isModeWidth nbits then { s with rend := some (progressOfMode w) }
  else { s with rend := none, cmds := commandOfWord (BitVec.ofNat 32 w) :: s.cmds }

end Sys2Proof.Machine
end

