-- ==== Sys2Proof/Machine/Flags.lean ====
section
/-! DEFINITION. The core has "no flags or condition codes" (10_state.md R33). What a host reads instead of flags are numbers:
the status code, the fault code and the keep-alive signal, whose encodings stand here. -/

namespace Sys2Proof.Machine

/-- The code of a status (60_exceptions.md R221). -/
def Status.code : Status → Nat
  | .ok => 0
  | .initRejected => 1
  | .silentNotInit => 2
  | .ignored => 3
  | .faulted _ _ => 4

/-- The 2-bit code of FAULT (10_state.md R30; 60_exceptions.md R225). -/
def FaultCode.code : FaultCode → BitVec 2
  | .noFault => 0#2
  | .blockLength => 1#2
  | .arrayLength => 2#2
  | .nonFinite => 3#2

/-- The fault a 2-bit code stands for: each of the four codes is assigned. -/
def FaultCode.ofCode (c : BitVec 2) : FaultCode :=
  if c = 0#2 then .noFault else if c = 1#2 then .blockLength else if c = 2#2 then .arrayLength else .nonFinite

/-- The keepAlive a RENDER returns with a status (10_state.md R33): true with OK and SILENT_NOT_INIT, false with FAULTED. -/
def Status.keepAlive : Status → Bool
  | .ok => true
  | .silentNotInit => true
  | .initRejected => false
  | .ignored => false
  | .faulted _ _ => false

end Sys2Proof.Machine
end

