-- ==== Sys2Proof/Safety.lean ====
section
/-! DEFINITION. What a safe run keeps: the invariant of the states a run reaches, in the terms the claims use. -/

namespace Sys2Proof

/-- z is the exact ratio num / scale, in units of 2^-1074, "rounded to nearest, ties to even" as IEEE 754 has it
(00_scope.md R7): no finite value is nearer; where another is as near, z is the even one; the sign of a result that is not
exactly zero is kept; and z is an infinity exactly from half a spacing beyond the greatest finite value on. -/
structure F64.RoundsTo (num : Int) (scale : Nat) (z : F64) : Prop where
  notNaN : z.isNaN = false
  overflow : z.isFinite = false ↔ scale * (magUnits (infMag - 1) + magUnits infMag) ≤ 2 * num.natAbs
  sign : num ≠ 0 → z.sgn = decide (num < 0)
  nearest : z.isFinite = true → ∀ w : F64, w.isFinite = true → (num - scale * z.val).natAbs ≤ (num - scale * w.val).natAbs
  even : z.isFinite = true → ∀ w : F64, w.isFinite = true → w.val ≠ z.val →
    (num - scale * z.val).natAbs = (num - scale * w.val).natAbs → z.mag % 2 = 0

namespace Machine

/-- The phase invariant of 10_state.md R25: every phase register is finite and in [0, 1). -/
structure State.PhasesInUnit (s : State) : Prop where
  phase : s.phase.inUnit = true
  phase2 : s.phase2.inUnit = true
  ssp : ∀ i, (s.ssp.get i).inUnit = true

/-- A RENDER in progress is one whose checks passed on an initialised, unfaulted core, short of its end (43_engine.md R181). -/
structure State.RenderOk (s : State) (pr : Progress) : Prop where
  initd : s.initd = true
  fault : s.fault = .noFault
  index : pr.index < pr.len
  len : pr.len ≤ s.nmax
  arrays : firstBadArray pr.len pr.src = none
  values : firstNonFinite pr.src pr.len = none

/-- FINFO is what its cause records (60_exceptions.md R225): (7, 0) with no fault and with FAULT_BLOCK_LENGTH, a parameter and
0 with FAULT_ARRAY_LENGTH, a parameter and a sample below NMAX with FAULT_NONFINITE. -/
def State.FaultInfoOk (s : State) : Prop :=
  match s.fault with
  | .noFault => s.finfo = ⟨7, 0⟩
  | .blockLength => s.finfo = ⟨7, 0⟩
  | .arrayLength => s.finfo.param ≠ 7 ∧ s.finfo.index = 0
  | .nonFinite => s.finfo.param ≠ 7 ∧ s.finfo.index < s.nmax

/-- The invariant every step keeps. -/
structure State.Inv (s : State) : Prop where
  /-- An initialised core has a legal sample rate (10_state.md R28). -/
  rate : s.initd = true → rateOk s.sr = true
  /-- The phase invariant (10_state.md R25). -/
  phases : s.initd = true → s.PhasesInUnit
  /-- The output block is in canonical form. -/
  out : s.out.wf = true
  /-- FAULT and FINFO agree (60_exceptions.md R225). -/
  info : s.FaultInfoOk
  /-- A RENDER in progress passed its checks (43_engine.md R181). -/
  render : ∀ pr, s.rend = some pr → s.RenderOk pr
  /-- No sample-step value outlives its step (10_state.md R32). -/
  locals : s.smp = .idle
  /-- NMAX is at least 1 (00_scope.md R6). -/
  nmax : 1 ≤ s.nmax

/-- Every command the host has delivered is one of this spec: its operand record has its word's shape (30_encoding.md R70). -/
def State.HostOk (s : State) : Prop := ∀ c ∈ s.cmds, ∃ i, decodeCommand c = .ok i

/-- Two states hold the same record of 10_state.md R20 and the same NMAX. -/
structure State.SameRecord (s t : State) : Prop where
  phase : s.phase = t.phase
  phase2 : s.phase2 = t.phase2
  ssp : s.ssp = t.ssp
  dcX : s.dcX = t.dcX
  dcY : s.dcY = t.dcY
  sr : s.sr = t.sr
  initd : s.initd = t.initd
  fault : s.fault = t.fault
  finfo : s.finfo = t.finfo
  nmax : s.nmax = t.nmax

end Machine

end Sys2Proof
end

