-- ==== Sys2Proof/Certificates/Slice0/Obligations.lean ====
section
/-! DEFINITION. The statements about the core, each with the rule of spec/ it formalises. `+0.0` is written as the datum whose
64 bits are zero, `⟨0#64⟩`. -/

open Sys2Proof Sys2Proof.Machine

/-! ## Encoding (30_encoding.md) -/

/-- R77: what each command word decodes to. -/
def Obligations.CommandWordsDecodeAsTabled : Prop :=
  ∀ w : CmdWord,
    (cmdKind w = .init ↔ w = 0x00000001#32) ∧ (cmdKind w = .render ↔ w = 0x00000002#32) ∧
    (cmdKind w = .reset ↔ w = 0x00000010#32) ∧
    (cmdKind w = .unrecognised ↔ w ≠ 0x00000001#32 ∧ w ≠ 0x00000002#32 ∧ w ≠ 0x00000010#32)

/-- Sections 2, 4: an encoded well-formed instruction decodes to itself, with every operand at every value. -/
def Obligations.DecodeEncodeAgree : Prop :=
  ∀ i : Instr, i.WellFormed = true → decode (encode i) = .ok i

/-- Sections 2, 3, 4: what a command or a mode code decodes to is well formed and encodes to that word, with that operand
record (which an unrecognised command ignores), or that code. -/
def Obligations.EncodeDecodeAgree : Prop :=
  (∀ (c : Command) (i : Instr), decodeCommand c = .ok i →
    i.WellFormed = true ∧ ∃ ops, encode i = .command { word := c.word, ops := ops } ∧
      (cmdKind c.word ≠ .unrecognised → ops = c.ops)) ∧
  (∀ (m : ModeBits) (i : Instr), decodeMode m = .ok i → i.WellFormed = true ∧ encode i = .mode m)

/-- R72, R79: words written out from the tables decode to the instructions they stand for, and the codes R78 excludes to
none. -/
def Obligations.WrittenWordsDecode : Prop :=
  decodeTableWord 32 0x00000001 = some (.init ⟨0#64⟩ ⟨⟨0#64⟩, ⟨0#64⟩, ⟨0#64⟩, ⟨0#64⟩, ⟨0#64⟩, ⟨0#64⟩, ⟨0#64⟩⟩) ∧
  decodeTableWord 32 0x00000010 = some .reset ∧ decodeTableWord 32 0x80000002 = some (.unrecognised 0x80000002#32) ∧
  decodeTableWord 32 0x00000101 = some (.unrecognised 0x00000101#32) ∧
  decodeMode 0b000#3 = .ok .saw ∧ decodeMode 0b001#3 = .ok .pulse ∧ decodeMode 0b010#3 = .ok .supersaw ∧
  decodeMode 0b011#3 = .ok .fm2op ∧ decodeMode 0b100#3 = .ok .pdfold ∧
  decodeMode 0b101#3 = .error (.reservedMode 0b101#3) ∧ decodeMode 0b110#3 = .error (.reservedMode 0b110#3) ∧
  decodeMode 0b111#3 = .error (.reservedMode 0b111#3)

/-- R78: the mode code of a finite value is that value floored and clamped to 0..4, said by comparisons of the value. -/
def Obligations.ModeCodeIsFlooredAndClamped : Prop :=
  ∀ v : F64, v.isFinite = true →
    (modeCode v = 0#3 ↔ v.lt (.ofInt 1) = true) ∧
    (modeCode v = 1#3 ↔ (F64.ofInt 1).le v = true ∧ v.lt (.ofInt 2) = true) ∧
    (modeCode v = 2#3 ↔ (F64.ofInt 2).le v = true ∧ v.lt (.ofInt 3) = true) ∧
    (modeCode v = 3#3 ↔ (F64.ofInt 3).le v = true ∧ v.lt (.ofInt 4) = true) ∧
    (modeCode v = 4#3 ↔ (F64.ofInt 4).le v = true)

/-- R84: the pseudo-instructions are the commands they expand to. -/
def Obligations.PseudoInstructionsExpand : Prop :=
  decodeCommand .nop = .ok (.unrecognised 0x00000000#32) ∧
  ∀ (n : Nat) (m f g pw det fm tim : F64),
    decodeCommand (.renderK n m f g pw det fm tim) =
      .ok (.render n ⟨⟨m, []⟩, ⟨f, []⟩, ⟨g, []⟩, ⟨pw, []⟩, ⟨det, []⟩, ⟨fm, []⟩, ⟨tim, []⟩⟩)

/-- 20_memory.md R53: a serialised word or value reads back, little-endian: byte i is its bits 8i to 8i + 7. -/
def Obligations.SerialisedWordsAndValuesReadBack : Prop :=
  (∀ (w : CmdWord) (rest : List Byte), wordOfBytes (wordToBytes w ++ rest) = .ok (w, rest)) ∧
  (∀ (w : CmdWord) (i : Nat), (wordToBytes w)[i]? = if i < 4 then some (w.extractLsb' (8 * i) 8) else none) ∧
  (∀ x : F64, f64OfBytes (f64ToBytes x) = some x) ∧
  (∀ (x : F64) (i : Nat), (f64ToBytes x)[i]? = if i < 8 then some (x.bits.extractLsb' (8 * i) 8) else none)

/-! ## Arithmetic (00_scope.md section 6) -/

/-- R7: each operation on finite values is the exact result rounded to nearest, ties to even. -/
def Obligations.ArithmeticIsCorrectlyRounded : Prop :=
  ∀ x y : F64, x.isFinite = true → y.isFinite = true →
    F64.RoundsTo (x.val + y.val) 1 (x.add y) ∧ F64.RoundsTo (x.val - y.val) 1 (x.sub y) ∧
    F64.RoundsTo (x.val * y.val) F64.unitScale (x.mul y) ∧
    (y.val ≠ 0 → F64.RoundsTo (x.val * F64.unitScale * y.val.sign) y.val.natAbs (x.div y))

/-- R8: a literal p / q denotes the nearest binary64 number, and TWO_PI is twice the one nearest to π. -/
def Obligations.LiteralsAreNearest : Prop :=
  (∀ p q : Nat, 0 < q → F64.RoundsTo (p * F64.unitScale) q (.ofRatio p q)) ∧
  F64.piNearest = ⟨0x400921FB54442D18#64⟩ ∧ twoPi.val = 2 * F64.piNearest.val

/-- R9: floor is exact: a whole number, not above x, and less than 1 below it. -/
def Obligations.FloorIsExact : Prop :=
  ∀ x : F64, x.isFinite = true →
    x.floor.isFinite = true ∧ (F64.unitScale : Int) ∣ x.floor.val ∧ x.floor.val ≤ x.val ∧
    x.val < x.floor.val + F64.unitScale

/-! ## Resolver, clamps, accumulator, corrector (40_primitives.md) -/

/-- R100: a parameter resolves to the element of its array when that is longer than 1 (none beyond its end, which R182 of
43_engine.md excludes), else to its block-constant value, an array of length 0 or 1 being ignored. -/
def Obligations.ResolveTakesTheArrayOrTheConstant : Prop :=
  ∀ (src : Sources) (p : Param) (n : Nat),
    (1 < (src.get p).arr.length → resolve src p n = (src.get p).arr[n]?) ∧
    ((src.get p).arr.length ≤ 1 → resolve src p n = some (src.get p).kval)

/-- R102: the frequency clamp, for every SIN and FREQ_FLOOR, at a sample rate whose bound 0.45·SR is above 0. (Where that bound
rounds to 0 no FREQ_FLOOR exists; what the model does there is its own choice, log 5, and no part of this.) -/
def Obligations.FrequencyIsClamped : Prop :=
  ∀ (P : Params) (sr x : F64), rateOk sr = true → F64.zero.lt ((F64.ofRatio 45 100).mul sr) = true → x.isFinite = true →
    (((F64.ofRatio 45 100).mul sr).lt x = true → clampFreq P sr x = (F64.ofRatio 45 100).mul sr) ∧
    (x.le .zero = true → F64.zero.lt (P.freqFloor sr) = true → (P.freqFloor sr).le ((F64.ofRatio 45 100).mul sr) = true →
      clampFreq P sr x = P.freqFloor sr) ∧
    (x.le .zero = true → F64.zero.lt (clampFreq P sr x) = true ∧
      (clampFreq P sr x).le ((F64.ofRatio 45 100).mul sr) = true) ∧
    (F64.zero.lt x = true → x.le ((F64.ofRatio 45 100).mul sr) = true → clampFreq P sr x = x)

/-- R103, R104: the unit and pulse-width clamps, up to which zero a zero is (U12). -/
def Obligations.UnitAndWidthAreClamped : Prop :=
  ∀ x : F64, x.isFinite = true →
    (F64.zero.le x = true → x.le .one = true → (clampUnit x).val = x.val) ∧
    (x.lt .zero = true → clampUnit x = ⟨0#64⟩) ∧ (F64.one.lt x = true → clampUnit x = .one) ∧
    ((F64.ofRatio 5 100).le x = true → x.le (.ofRatio 95 100) = true → clampPW x = x) ∧
    (x.lt (.ofRatio 5 100) = true → clampPW x = .ofRatio 5 100) ∧
    ((F64.ofRatio 95 100).lt x = true → clampPW x = .ofRatio 95 100)

/-- R106: the accumulator wraps once, by subtracting exactly 1. -/
def Obligations.AdvanceWrapsExactly : Prop :=
  ∀ ph dt : F64, ph.inUnit = true → dt.inUnit = true →
    (F64.one.le (ph.add dt) = true →
      advance ph dt = (ph.add dt).sub .one ∧ (advance ph dt).val = (ph.add dt).val - F64.unitScale) ∧
    ((ph.add dt).lt .one = true → advance ph dt = ph.add dt)

/-- R107 (a): an advanced phase stays in the unit interval. -/
def Obligations.AdvancedPhaseStaysInTheUnit : Prop :=
  ∀ ph dt : F64, ph.inUnit = true → dt.inUnit = true → (advance ph dt).inUnit = true

/-- R105, R136, R137: every increment a sample step uses is in [0, 1), for every frequency and every legal sample rate. -/
def Obligations.IncrementsStayBelowOne : Prop :=
  ∀ (P : Params) (sr x y tim det : F64), rateOk sr = true → x.isFinite = true → tim.isFinite = true → det.isFinite = true →
    y = clampFreq P sr x →
    (inc sr y).inUnit = true ∧ (fmInc P sr y (clampUnit tim)).inUnit = true ∧
    ∀ k : Int, -3 ≤ k → k ≤ 3 → (voiceInc sr y (spread (clampUnit det)) k).inUnit = true

/-- R108: the corrector's three branches. -/
def Obligations.PolyBlepTakesItsBranches : Prop :=
  ∀ t dt : F64,
    (t.lt dt = true → polyBlep t dt =
      (((t.div dt).add (t.div dt)).sub ((t.div dt).mul (t.div dt))).sub .one) ∧
    (t.lt dt = false → (F64.one.sub dt).lt t = true → polyBlep t dt =
      (((((t.sub .one).div dt).mul ((t.sub .one).div dt)).add ((t.sub .one).div dt)).add ((t.sub .one).div dt)).add .one) ∧
    (t.lt dt = false → (F64.one.sub dt).lt t = false → polyBlep t dt = ⟨0#64⟩)

/-- R109: the corrector's corner values, for increments up to one half; at t = 1 only where 1 - dt is below 1 in binary64 (for a
smaller dt the pseudocode gives 0). -/
def Obligations.PolyBlepCornerValues : Prop :=
  ∀ dt : F64, dt.isFinite = true → F64.zero.lt dt = true → dt.le .half = true →
    polyBlep ⟨0#64⟩ dt = .negOne ∧ polyBlep dt dt = ⟨0#64⟩ ∧ polyBlep (F64.one.sub dt) dt = ⟨0#64⟩ ∧
    ((F64.one.sub dt).lt .one = true → polyBlep .one dt = .one) ∧
    ∀ t : F64, t.isFinite = true → F64.zero.le t = true → t.le .one = true → polyBlep t ⟨0#64⟩ = ⟨0#64⟩

/-- R110, R132: the falling-edge position p0 - pw of a phase and a pulse width, wrapped by adding 1 where it is negative, lies in
[0, 1]. -/
def Obligations.FallingEdgePositionWraps : Prop :=
  ∀ p0 pw : F64, p0.inUnit = true → pw.isFinite = true → (F64.ofRatio 5 100).le pw = true → pw.le (.ofRatio 95 100) = true →
    (p0.lt pw = true → wrapNeg (p0.sub pw) = (p0.sub pw).add .one) ∧
    (p0.lt pw = false → wrapNeg (p0.sub pw) = p0.sub pw) ∧
    F64.zero.le (wrapNeg (p0.sub pw)) = true ∧ (wrapNeg (p0.sub pw)).le .one = true

/-- R111: the fractional part is x - floor(x), in [0, 1]. -/
def Obligations.FractionLiesInTheUnit : Prop :=
  ∀ x : F64, x.isFinite = true →
    frac x = x.sub x.floor ∧ (frac x).isFinite = true ∧ F64.zero.le (frac x) = true ∧ (frac x).le .one = true

/-! ## Generators (41_generators.md): each completes on every state, with the result its rule gives and nothing else written
but the registers its rule names -/

/-- R131. -/
def Obligations.SawCompletes : Prop :=
  ∀ s : State, exec .saw s = .next { s with smp := { s.smp with
    x := (((F64.ofInt 2).mul s.smp.p0).sub .one).sub (polyBlep s.smp.p0 s.smp.dt) } }

/-- R132. -/
def Obligations.PulseCompletes : Prop :=
  ∀ s : State, exec .pulse s = .next { s with smp := { s.smp with
    x := ((if s.smp.p0.lt s.smp.pw then F64.ofInt 1 else .ofInt (-1)).add (polyBlep s.smp.p0 s.smp.dt)).sub
      (polyBlep (wrapNeg (s.smp.p0.sub s.smp.pw)) s.smp.dt) } }

/-- R133, R134, R135, the seven voices written out: voice k reads and advances ssp[k + 3] only. -/
def Obligations.SupersawCompletes : Prop :=
  ∀ s : State, ∃ t : State, exec .supersaw s = .next t ∧
    (∀ (i : Fin 7) (dtk : F64),
      dtk = (s.smp.f.mul (F64.one.add ((F64.ofInt (i.val - 3)).mul
        ((F64.ofRatio 3 1000).add (s.smp.det.mul (.ofRatio 2 100)))))).div s.sr →
      t.ssp.get i = advance (s.ssp.get i) dtk) ∧
    (∀ xs : Fin 7 → F64,
      (∀ i : Fin 7, xs i = saw (s.ssp.get i) ((s.smp.f.mul (F64.one.add ((F64.ofInt (i.val - 3)).mul
        ((F64.ofRatio 3 1000).add (s.smp.det.mul (.ofRatio 2 100)))))).div s.sr)) →
      t.smp.x = ((((((((F64.ofInt 0).add (xs 0)).add (xs 1)).add (xs 2)).add (xs 3)).add (xs 4)).add (xs 5)).add
        (xs 6)).div (.ofInt 7)) ∧
    t = { s with ssp := t.ssp, smp := { s.smp with x := t.smp.x } }

/-- R137, R138, R139. -/
def Obligations.Fm2opCompletes : Prop :=
  ∀ (s : State) (r f2 idx modv cp : F64),
    r = (F64.ofRatio 1 2).add (s.smp.tim.mul (.ofInt 6)) → f2 = clampFreq Config.params s.sr (s.smp.f.mul r) →
    idx = s.smp.fmi.mul ((F64.ofInt 2).add ((F64.ofInt 10).mul s.smp.tim)) →
    modv = Config.sin (twoPi.mul s.phase2) → cp = s.smp.p0.add ((modv.mul idx).mul s.smp.dt) →
    exec .fm2op s = .next { s with
      phase2 := advance s.phase2 (f2.div s.sr),
      smp := { s.smp with
        x := softClip ((Config.sin (twoPi.mul (frac cp))).mul (F64.one.add ((F64.ofInt 2).mul s.smp.fmi))) } }

/-- R141, R142. -/
def Obligations.PdfoldCompletes : Prop :=
  ∀ (s : State) (a w z : F64),
    a = (F64.ofRatio 5 100).add (s.smp.tim.mul (.ofRatio 9 10)) →
    w = (if s.smp.p0.lt a then (s.smp.p0.div a).mul (.ofRatio 1 2)
      else (F64.ofRatio 1 2).add (((s.smp.p0.sub a).div (F64.one.sub a)).mul (.ofRatio 1 2))) →
    z = (Config.sin (twoPi.mul w)).mul (F64.one.add (s.smp.fmi.mul (.ofInt 6))) →
    exec .pdfold s = .next { s with smp := { s.smp with
      x := softClip ((F64.ofInt 2).mul (z.sub (z.add (.ofRatio 1 2)).floor)) } }

/-- R131, corner: at the edge the corrector cancels the naive saw exactly. -/
def Obligations.SawIsZeroAtItsEdge : Prop :=
  ∀ dt : F64, dt.isFinite = true → F64.zero.lt dt = true → saw ⟨0#64⟩ dt = ⟨0#64⟩

/-- R136 (c): with all phases at 0 the supersaw's sample is exactly 0, where no voice's increment underflows to 0. -/
def Obligations.SupersawOfEqualPhasesStartsAtZero : Prop :=
  ∀ sr f det : F64,
    (∀ k : Int, -3 ≤ k → k ≤ 3 → (voiceInc sr f (spread det) k).isFinite = true ∧
      F64.zero.lt (voiceInc sr f (spread det) k) = true) →
    mean (voiceSaws sr f det (.fill ⟨0#64⟩)) = ⟨0#64⟩

/-- R140 (a): with index 0 the FM sample is the soft-clipped sine of the carrier phase, whatever the timbre and the modulator, for
every SIN that is finite there. -/
def Obligations.FmWithoutIndexIsAClippedSine : Prop :=
  ∀ (P : Params) (p0 q0 dt tim : F64), p0.inUnit = true → p0.sgn = false → dt.inUnit = true →
    F64.zero.le tim = true → tim.le .one = true →
    (P.sin (twoPi.mul q0)).isFinite = true → (P.sin (twoPi.mul (frac p0))).isFinite = true →
    fm2op P p0 q0 dt ⟨0#64⟩ tim = softClip (P.sin (twoPi.mul (frac p0)))

/-- R141: at the breakpoint the warp is exactly one half. -/
def Obligations.WarpMeetsAtTheBreakpoint : Prop :=
  ∀ a : F64, a.isFinite = true → F64.zero.lt a = true → a.lt .one = true → warp a a = .half

/-! ## Post-processing (42_postprocess.md) -/

/-- R160, R161: the clipper's formula; it is odd, and bounded by 2/3 + 2^-52 on every finite input. -/
def Obligations.SoftClipIsOddAndBounded : Prop :=
  ∀ x : F64, x.isFinite = true →
    softClip x = x.div (F64.one.add ((F64.ofRatio 15 10).mul x.abs)) ∧
    softClip x.neg = (softClip x).neg ∧
    3 * (softClip x).val.natAbs ≤ 2 * F64.unitScale + 3 * 2 ^ 1022

/-- R163 (a): under a constant input the DC blocker's output decays by the factor R a sample. -/
def Obligations.ConstantInputDecays : Prop :=
  ∀ c y : F64, c.isFinite = true → y.isFinite = true →
    (dcOutput c y c).val = ((F64.ofRatio 995 1000).mul y).val ∧
    (dcOutput ⟨0#64⟩ ⟨0#64⟩ c).val = c.val

/-! ## The sample step (43_engine.md R186) -/

/-- R186, R162, R164: one sample step of a RENDER in progress: the generator sees the phase before the advance; the registers
its mode does not own, and every other frame, stay. -/
def Obligations.SampleStepFollowsItsProcedure : Prop :=
  ∀ (s : State) (pr : Progress) (r : Resolved) (f dt g pw det fmi tim : F64),
    s.rend = some pr → resolveAll pr.src pr.index = some r →
    f = clampFreq Config.params s.sr r.freq → g = clampUnit r.gain → pw = clampPW r.pulseWidth → det = clampUnit r.detune →
    fmi = clampUnit r.fmIndex → tim = clampUnit r.timbre → dt = f.div s.sr →
    ∃ (t : State) (x y : F64), step s = .next t ∧
      (modeCode r.mode = 0#3 → x = saw s.phase dt) ∧
      (modeCode r.mode = 1#3 → x = pulse s.phase dt pw) ∧
      (modeCode r.mode = 2#3 → x = mean (voiceSaws s.sr f det s.ssp) ∧ t.ssp = voiceAdvance s.sr f det s.ssp) ∧
      (modeCode r.mode = 3#3 → x = fm2op Config.params s.phase s.phase2 dt fmi tim ∧
        t.phase2 = advance s.phase2 (fmInc Config.params s.sr f tim)) ∧
      (modeCode r.mode = 4#3 → x = pdfold Config.params s.phase fmi tim) ∧
      (modeCode r.mode ≠ 2#3 → t.ssp = s.ssp) ∧ (modeCode r.mode ≠ 3#3 → t.phase2 = s.phase2) ∧
      t.phase = advance s.phase dt ∧
      y = (x.sub s.dcX).add ((F64.ofRatio 995 1000).mul s.dcY) ∧ t.dcX = x ∧ t.dcY = y ∧
      (∀ k, t.out.read k = if k = pr.index then some (y.mul g) else s.out.read k) ∧
      t.sr = s.sr ∧ t.initd = s.initd ∧ t.fault = s.fault ∧ t.finfo = s.finfo ∧ t.cmds = s.cmds ∧ t.nmax = s.nmax ∧
      t.smp = .idle ∧
      (pr.index + 1 < pr.len → t.rend = some { pr with index := pr.index + 1 } ∧ t.resp = s.resp) ∧
      (pr.len ≤ pr.index + 1 → t.rend = none ∧ t.resp = some ⟨.ok, some true⟩)

/-! ## Commands (43_engine.md) -/

/-- R190, R191, R192: INIT on a core that is not faulted. -/
def Obligations.InitFollowsItsProcedure : Prop :=
  ∀ (s : State) (rate : F64) (off : Seven F64) (valid : Prop), s.fault = .noFault →
    (valid ↔ rate.isFinite = true ∧ F64.zero.lt rate = true ∧
      ∀ i, (off.get i).isFinite = true ∧ F64.zero.le (off.get i) = true ∧ (off.get i).lt .one = true) →
    (valid → exec (.init rate off) s = .next { s with
      sr := rate, phase := ⟨0#64⟩, phase2 := ⟨0#64⟩, ssp := off, dcX := ⟨0#64⟩, dcY := ⟨0#64⟩, initd := true,
      resp := some ⟨.ok, none⟩ }) ∧
    (¬valid → exec (.init rate off) s = .next { s with resp := some ⟨.initRejected, none⟩ })

/-- R193 (a): a valid INIT leaves the same oscillator and filter state whatever was there before. -/
def Obligations.InitForgetsTheOldVoice : Prop :=
  ∀ (s u : State) (rate : F64) (off : Seven F64), s.fault = .noFault → u.fault = .noFault → s.finfo = u.finfo →
    s.nmax = u.nmax → rateOk rate = true → offsetsOk off = true →
    ∃ t v, exec (.init rate off) s = .next t ∧ exec (.init rate off) u = .next v ∧ t.SameRecord v ∧ t.initd = true

/-- R194: RESET on a core that is not faulted. -/
def Obligations.ResetZeroesPhasesOnly : Prop :=
  ∀ s : State, s.fault = .noFault →
    (s.initd = true → exec .reset s = .next { s with
      phase := ⟨0#64⟩, phase2 := ⟨0#64⟩, ssp := ⟨⟨0#64⟩, ⟨0#64⟩, ⟨0#64⟩, ⟨0#64⟩, ⟨0#64⟩, ⟨0#64⟩, ⟨0#64⟩⟩,
      resp := some ⟨.ok, none⟩ }) ∧
    (s.initd = false → exec .reset s = .next { s with resp := some ⟨.ignored, none⟩ })

/-- R195 (c): two RESETs in a row act as one. -/
def Obligations.ResetTwiceIsResetOnce : Prop :=
  ∀ s : State, ∃ t, exec .reset s = .next t ∧ exec .reset t = .next t

/-- R196: an unrecognised command on a core that is not faulted, whatever its word. -/
def Obligations.UnrecognisedIsIgnored : Prop :=
  ∀ (s : State) (w : CmdWord), s.fault = .noFault →
    exec (.unrecognised w) s = .next { s with resp := some ⟨.ignored, none⟩ }

/-- R189: a faulted core answers every command FAULTED and changes nothing. -/
def Obligations.FaultedCoreOnlyAnswers : Prop :=
  ∀ s : State, s.fault ≠ .noFault →
    (∀ rate off, exec (.init rate off) s = .next { s with resp := some ⟨.faulted s.fault s.finfo, none⟩ }) ∧
    (∀ n src, exec (.render n src) s = .next { s with resp := some ⟨.faulted s.fault s.finfo, some false⟩ }) ∧
    exec .reset s = .next { s with resp := some ⟨.faulted s.fault s.finfo, none⟩ } ∧
    (∀ w, exec (.unrecognised w) s = .next { s with resp := some ⟨.faulted s.fault s.finfo, none⟩ })

/-- R182, R184: the three faults of a RENDER, each with the operands it names and in the order of R226; a fault changes FAULT,
FINFO and the response, and nothing else. -/
def Obligations.RenderFaultsOnOperandsOutsideItsContract : Prop :=
  ∀ (s : State) (n : Nat) (src : Sources), s.fault = .noFault →
    (s.nmax < n → exec (.render n src) s = .next { s with
      fault := .blockLength, finfo := ⟨7, 0⟩, resp := some ⟨.faulted .blockLength ⟨7, 0⟩, some false⟩ }) ∧
    (∀ p, n ≤ s.nmax → s.initd = true → 1 < (src.get p).arr.length → (src.get p).arr.length ≠ n →
      (∀ q : Param, q.index < p.index → (src.get q).arr.length ≤ 1 ∨ (src.get q).arr.length = n) →
      exec (.render n src) s = .next { s with
        fault := .arrayLength, finfo := ⟨p.index, 0⟩, resp := some ⟨.faulted .arrayLength ⟨p.index, 0⟩, some false⟩ }) ∧
    (∀ p k v, n ≤ s.nmax → s.initd = true → (∀ q, (src.get q).arr.length ≤ 1 ∨ (src.get q).arr.length = n) →
      k < n → resolve src p k = some v → v.isFinite = false →
      (∀ j q w, j < k ∨ (j = k ∧ q.index < p.index) → resolve src q j = some w → w.isFinite = true) →
      exec (.render n src) s = .next { s with
        fault := .nonFinite, finfo := ⟨p.index, k⟩, resp := some ⟨.faulted .nonFinite ⟨p.index, k⟩, some false⟩ })

/-- R183: a RENDER before INIT writes silence, whatever its parameter sources. -/
def Obligations.RenderBeforeInitIsSilent : Prop :=
  ∀ (s : State) (n : Nat) (src : Sources), s.fault = .noFault → n ≤ s.nmax → s.initd = false →
    ∃ t, exec (.render n src) s = .next t ∧ t = { s with out := t.out, resp := some ⟨.silentNotInit, some true⟩ } ∧
      ∀ k, t.out.read k = if k < n then some ⟨0#64⟩ else s.out.read k

/-- R187, R26, 20_memory.md R52: a RENDER inside its contract completes with (OK, true); it writes each frame below N and no
other, leaves the control registers, and touches phase2 and the supersaw phases only in samples of their modes. -/
def Obligations.RenderCompletes : Prop :=
  ∀ (s : State) (n : Nat) (src : Sources), s.fault = .noFault → n ≤ s.nmax → s.initd = true →
    (∀ p, (src.get p).arr.length ≤ 1 ∨ (src.get p).arr.length = n) →
    (∀ p k v, k < n → resolve src p k = some v → v.isFinite = true) →
    ∃ t, exec (.render n src) s = .next t ∧ t.resp = some ⟨.ok, some true⟩ ∧
      t.sr = s.sr ∧ t.initd = true ∧ t.fault = .noFault ∧ t.finfo = s.finfo ∧ t.cmds = s.cmds ∧ t.nmax = s.nmax ∧
      t.rend = none ∧ t.smp = .idle ∧
      (∀ k, k < n → ∃ v, t.out.read k = some v) ∧ (∀ k, n ≤ k → t.out.read k = s.out.read k) ∧
      ((∀ k v, k < n → resolve src .mode k = some v → modeCode v ≠ 3#3) → t.phase2 = s.phase2) ∧
      ((∀ k v, k < n → resolve src .mode k = some v → modeCode v ≠ 2#3) → t.ssp = s.ssp)

/-- R188 (a): a RENDER of no frames changes nothing but the response. -/
def Obligations.RenderOfNoFramesChangesNothing : Prop :=
  ∀ (s : State) (src : Sources), s.fault = .noFault → s.initd = true → s.rend = none → s.smp = .idle →
    (∀ p, (src.get p).arr.length ≤ 1) →
    exec (.render 0 src) s = .next { s with resp := some ⟨.ok, some true⟩ }

/-- R185: a RENDER inside its contract is its sample steps run one after another by `step` (the step-by-step form is the
model's, log 9). -/
def Obligations.RenderIsItsSampleStepsInOrder : Prop :=
  ∀ (s : State) (n : Nat) (src : Sources), s.fault = .noFault → 1 ≤ n → n ≤ s.nmax → s.initd = true →
    firstBadArray n src = none → firstNonFinite src n = none →
    exec (.render n src) s =
      Host.Core.run Sys2Proof.core n { s with rend := some { len := n, src := src, index := 0 } }

/-- R24, R185: state persists across blocks: with block-constant parameters a block of n + m samples is a block of n and then one
of m, in every register and every frame. -/
def Obligations.BlocksOfConstantParametersSplit : Prop :=
  ∀ (s : State) (n m : Nat) (src : Sources), s.fault = .noFault → s.initd = true → n + m ≤ s.nmax →
    (∀ p, (src.get p).arr.length ≤ 1) → (∀ p, (src.get p).kval.isFinite = true) →
    ∃ t u v, exec (.render (n + m) src) s = .next t ∧ exec (.render n src) s = .next u ∧
      exec (.render m src) u = .next v ∧ t.SameRecord v ∧
      (∀ k, k < n → u.out.read k = t.out.read k) ∧ (∀ k, k < m → v.out.read k = t.out.read (n + k))

/-- R100: RENDER depends on its sources only through what they resolve to: an array of length 0 or 1 is ignored, and so is the
block-constant value beside a longer array. -/
def Obligations.RenderDependsOnResolvedValuesOnly : Prop :=
  ∀ (s : State) (n : Nat) (src src' : Sources),
    (∀ p, (src.get p).arr.length ≤ 1 ∨ (src.get p).arr.length = n) →
    (∀ p, (src'.get p).arr.length ≤ 1 ∨ (src'.get p).arr.length = n) →
    (∀ p k, k < n → resolve src p k = resolve src' p k) →
    exec (.render n src) s = exec (.render n src') s

/-- R197: what a RENDER computes is a function of the record of R20 and its operands: it does not depend on what the output block
held, on the last response or on the commands waiting. -/
def Obligations.RenderIsAFunctionOfTheRecord : Prop :=
  ∀ (s u : State) (n : Nat) (src : Sources), s.SameRecord u →
    (∀ t, exec (.render n src) s = .next t → ∃ v, exec (.render n src) u = .next v ∧ t.SameRecord v ∧ t.resp = v.resp ∧
      (t.fault = .noFault → ∀ k, k < n → t.out.read k = v.out.read k))

/-- R33, R221: the statuses each command returns, and keepAlive. -/
def Obligations.EveryCommandReturnsItsStatus : Prop :=
  ∀ s t : State,
    (∀ rate off, exec (.init rate off) s = .next t → ∃ st, t.resp = some ⟨st, none⟩ ∧
      (st = .ok ∨ st = .initRejected ∨ (st = .faulted t.fault t.finfo ∧ t.fault ≠ .noFault))) ∧
    (∀ n src, exec (.render n src) s = .next t → ∃ st, t.resp = some ⟨st, some st.keepAlive⟩ ∧
      (st = .ok ∨ st = .silentNotInit ∨ (st = .faulted t.fault t.finfo ∧ t.fault ≠ .noFault))) ∧
    (exec .reset s = .next t → ∃ st, t.resp = some ⟨st, none⟩ ∧
      (st = .ok ∨ st = .ignored ∨ (st = .faulted t.fault t.finfo ∧ t.fault ≠ .noFault))) ∧
    (∀ w, exec (.unrecognised w) s = .next t → ∃ st, t.resp = some ⟨st, none⟩ ∧
      (st = .ignored ∨ (st = .faulted t.fault t.finfo ∧ t.fault ≠ .noFault)))

/-- R221, R225: the numbers of the statuses and of the fault causes. -/
def Obligations.StatusAndFaultNumbers : Prop :=
  Status.code .ok = 0 ∧ Status.code .initRejected = 1 ∧ Status.code .silentNotInit = 2 ∧ Status.code .ignored = 3 ∧
  (∀ c i, Status.code (.faulted c i) = 4) ∧
  FaultCode.code .noFault = 0#2 ∧ FaultCode.code .blockLength = 1#2 ∧ FaultCode.code .arrayLength = 2#2 ∧
  FaultCode.code .nonFinite = 3#2 ∧ ∀ c : BitVec 2, (FaultCode.ofCode c).code = c

/-! ## The machine -/

/-- R70, R180, 20_memory.md R56: with no RENDER in progress a step runs the next command, decoded, with the rest still waiting; a
core with none waits; a pair that is no command of this spec is refused by name. -/
def Obligations.StepRunsTheNextCommand : Prop :=
  ∀ s : State, s.rend = none →
    (s.cmds = [] → step s = .next s) ∧
    (∀ c rest i, s.cmds = c :: rest → decodeCommand c = .ok i → step s = exec i { s with cmds := rest }) ∧
    (∀ c rest e, s.cmds = c :: rest → decodeCommand c = .error e → step s = .refused .operandShape)

/-- R130, R186: with a RENDER in progress a step runs, between the two halves of the sample step, the generator its mode code
decodes to. -/
def Obligations.StepRunsTheSelectedGenerator : Prop :=
  ∀ (s : State) (pr : Progress), s.rend = some pr →
    (∀ r, resolveAll pr.src pr.index = some r → ∃ i u, decodeMode (modeCode r.mode) = .ok i ∧
      exec i (openSample Config.params s r) = .next u ∧ step s = .next (afterGenerator pr u)) ∧
    (resolveAll pr.src pr.index = none → step s = .fault .renderOperands)

/-- An instruction placed by its word alone runs in the very next step (log 17). -/
def Obligations.PlacedWordRunsNext : Prop :=
  ∀ (s : State) (w : Nat) (i : Instr), decodeTableWord 32 w = some i →
    step (s.withFetchWord 32 w) = exec i { s with rend := none }

/-- 70_reset_and_hazards.md R250: the power-on state, and that it waits. -/
def Obligations.PowerOnStateWaits : Prop :=
  State.reset.initd = false ∧ State.reset.fault = .noFault ∧ State.reset.finfo = ⟨7, 0⟩ ∧ State.reset.rend = none ∧
  State.reset.cmds = [] ∧ (∀ n, State.reset.out.read n = none) ∧ step State.reset = .next State.reset

/-- The power-on state meets the invariant. -/
def Obligations.PowerOnStateIsSafe : Prop := State.reset.Inv

/-- 10_state.md R25, 60_exceptions.md R225: every step keeps the invariant, the phases in [0, 1) first of all. -/
def Obligations.EveryStepKeepsTheInvariant : Prop :=
  ∀ s t : State, s.Inv → step s = .next t → t.Inv

/-- R187, R223: from a state of the invariant whose commands are commands of this spec, the machine never stops. -/
def Obligations.SafeCoreNeverStops : Prop :=
  ∀ s : State, s.Inv → s.HostOk → ∃ t, step s = .next t ∧ t.HostOk

/-- R189, R224: no step clears or overwrites a fault, or then writes any other register. -/
def Obligations.FaultIsNeverCleared : Prop :=
  ∀ s t : State, s.Inv → s.fault ≠ .noFault → step s = .next t → s.SameRecord t ∧ s.out = t.out ∧ t.rend = none

/-- R28, R29: SR and INITD are written by a valid INIT only, and INITD is never cleared. -/
def Obligations.OnlyInitWritesRateAndInitialised : Prop :=
  ∀ s t : State, step s = .next t →
    (s.initd = true → t.initd = true) ∧ t.nmax = s.nmax ∧
    (t.sr ≠ s.sr ∨ t.initd ≠ s.initd →
      ∃ rate off rest, s.rend = none ∧ s.cmds = { word := 0x00000001#32, ops := .init rate off } :: rest ∧
        s.fault = .noFault ∧ rateOk rate = true ∧ offsetsOk off = true ∧ t.sr = rate ∧ t.initd = true)
end

