-- ==== Sys2Proof/Laws/Binary64.lean ====
section
/-! SUPPORT. What the arithmetic of Machine/Binary64.lean does, said once: the magnitude code is strictly increasing in its
value, rounding picks a neighbour of the exact result, is monotone, and is exact on representable values; the sum, product
and quotient of finite values in those terms. -/

namespace Sys2Proof.F64

/-! ## Fields of a packed datum -/

theorem mag_lt (x : F64) : x.mag < 2 ^ 63 := Nat.mod_lt _ (by norm_num)

theorem infMag_lt : infMag < 2 ^ 63 := by norm_num [infMag]

@[simp] theorem mag_pack {b : Bool} {c : Nat} (h : c < 2 ^ 63) : (pack b c).mag = c := by
  unfold mag pack
  rw [BitVec.toNat_ofNat]
  cases b <;> simp only [Bool.false_eq_true, if_true, if_false] <;> omega

@[simp] theorem sgn_pack {b : Bool} {c : Nat} (h : c < 2 ^ 63) : (pack b c).sgn = b := by
  unfold sgn pack
  rw [BitVec.toNat_ofNat]
  cases b <;> simp only [Bool.false_eq_true, if_true, if_false, decide_eq_true_eq, decide_eq_false_iff_not] <;> omega

/-- A datum is its sign and its magnitude bits. -/
theorem pack_sgn_mag (x : F64) : pack x.sgn x.mag = x := by
  obtain ⟨b⟩ := x
  have hb := b.isLt
  unfold pack sgn mag
  congr 1
  apply BitVec.eq_of_toNat_eq
  rw [BitVec.toNat_ofNat]
  simp only [decide_eq_true_eq]
  split <;> omega

/-- Two data with the same sign and magnitude bits are the same. -/
theorem ext_sgn_mag {x y : F64} (hs : x.sgn = y.sgn) (hm : x.mag = y.mag) : x = y := by
  rw [← pack_sgn_mag x, ← pack_sgn_mag y, hs, hm]

theorem val_pack {b : Bool} {c : Nat} (h : c < 2 ^ 63) :
    (pack b c).val = if b then -(magUnits c : Int) else (magUnits c : Int) := by
  unfold val; rw [sgn_pack h, mag_pack h]

@[simp] theorem isFinite_pack {b : Bool} {c : Nat} (h : c < 2 ^ 63) :
    (pack b c).isFinite = decide (c < infMag) := by
  unfold isFinite; rw [mag_pack h]

@[simp] theorem isNaN_pack {b : Bool} {c : Nat} (h : c < 2 ^ 63) :
    (pack b c).isNaN = decide (infMag < c) := by
  unfold isNaN; rw [mag_pack h]

@[simp] theorem isInf_pack {b : Bool} {c : Nat} (h : c < 2 ^ 63) :
    (pack b c).isInf = decide (c = infMag) := by
  unfold isInf; rw [mag_pack h]

theorem isFinite_iff {x : F64} : x.isFinite = true ↔ x.mag < infMag := by simp [isFinite]

theorem isNaN_of_isFinite {x : F64} (h : x.isFinite = true) : x.isNaN = false := by
  simp only [isFinite, isNaN, decide_eq_true_eq, decide_eq_false_iff_not] at *; omega

theorem isInf_of_isFinite {x : F64} (h : x.isFinite = true) : x.isInf = false := by
  simp only [isFinite, isInf, decide_eq_true_eq, decide_eq_false_iff_not] at *; omega

/-! ## Negation -/

@[simp] theorem mag_neg (x : F64) : x.neg.mag = x.mag := by unfold neg; exact mag_pack x.mag_lt

@[simp] theorem sgn_neg (x : F64) : x.neg.sgn = !x.sgn := by unfold neg; exact sgn_pack x.mag_lt

@[simp] theorem val_neg (x : F64) : x.neg.val = -x.val := by
  simp only [val, sgn_neg, mag_neg]
  cases x.sgn <;> simp

@[simp] theorem isFinite_neg (x : F64) : x.neg.isFinite = x.isFinite := by simp [isFinite]

@[simp] theorem isNaN_neg (x : F64) : x.neg.isNaN = x.isNaN := by simp [isNaN]

@[simp] theorem neg_neg (x : F64) : x.neg.neg = x := ext_sgn_mag (by simp) (by simp)

@[simp] theorem mag_abs (x : F64) : x.abs.mag = x.mag := by unfold abs; exact mag_pack x.mag_lt

@[simp] theorem sgn_abs (x : F64) : x.abs.sgn = false := by unfold abs; exact sgn_pack x.mag_lt

@[simp] theorem abs_neg (x : F64) : x.neg.abs = x.abs := ext_sgn_mag (by simp) (by simp)

/-! ## Magnitude codes and their values -/

/-- The value of the code whose shifted exponent is k and whose significand is m, also where m carries into the next binade. -/
theorem magUnits_shift {k m : Nat} (hm : m ≤ 2 ^ 53) (h : k = 0 ∨ 2 ^ 52 ≤ m) :
    magUnits (k * 2 ^ 52 + m) = m * 2 ^ k := by
  unfold magUnits
  rcases Nat.lt_or_ge m (2 ^ 52) with hlt | hge
  · have hk : k = 0 := by omega
    subst hk
    rw [if_pos (by omega)]
    simp only [Nat.zero_mul, Nat.zero_add, Nat.pow_zero, Nat.mul_one]
    exact Nat.mod_eq_of_lt hlt
  · rcases Nat.lt_or_ge m (2 ^ 53) with hlt | heq
    · have hd : (k * 2 ^ 52 + m) / 2 ^ 52 = k + 1 := by omega
      have hr : (k * 2 ^ 52 + m) % 2 ^ 52 = m - 2 ^ 52 := by omega
      rw [hd, hr, if_neg (by omega)]
      rw [show 2 ^ 52 + (m - 2 ^ 52) = m by omega, Nat.add_sub_cancel]
    · have he : m = 2 ^ 53 := by omega
      have hd : (k * 2 ^ 52 + m) / 2 ^ 52 = k + 2 := by omega
      have hr : (k * 2 ^ 52 + m) % 2 ^ 52 = 0 := by omega
      rw [hd, hr, if_neg (by omega), he]
      rw [show k + 2 - 1 = k + 1 by omega, Nat.pow_succ]
      ring

/-- Every code is a shifted exponent and a significand. -/
theorem magUnits_cases (c : Nat) :
    ∃ k m, c = k * 2 ^ 52 + m ∧ m < 2 ^ 53 ∧ (k = 0 ∨ 2 ^ 52 ≤ m) := by
  rcases Nat.eq_zero_or_pos (c / 2 ^ 52) with h | h
  · exact ⟨0, c, by omega, by omega, .inl rfl⟩
  · exact ⟨c / 2 ^ 52 - 1, 2 ^ 52 + c % 2 ^ 52, by omega, by omega, .inr (by omega)⟩

/-- Two neighbouring codes: their values differ by the spacing of their binade. -/
theorem magUnits_succ {k m : Nat} (hm : m < 2 ^ 53) (h : k = 0 ∨ 2 ^ 52 ≤ m) :
    magUnits (k * 2 ^ 52 + m + 1) = (m + 1) * 2 ^ k := by
  rw [Nat.add_assoc]
  exact magUnits_shift (by omega) (by omega)

theorem magUnits_lt_succ (c : Nat) : magUnits c < magUnits (c + 1) := by
  obtain ⟨k, m, rfl, hm, h⟩ := magUnits_cases c
  rw [magUnits_succ hm h, magUnits_shift (by omega) h]
  exact Nat.mul_lt_mul_of_pos_right (Nat.lt_succ_self m) (Nat.two_pow_pos k)

theorem magUnits_strictMono : StrictMono magUnits := strictMono_nat_of_lt_succ magUnits_lt_succ

theorem magUnits_le_iff {a b : Nat} : magUnits a ≤ magUnits b ↔ a ≤ b := magUnits_strictMono.le_iff_le

theorem magUnits_lt_iff {a b : Nat} : magUnits a < magUnits b ↔ a < b := magUnits_strictMono.lt_iff_lt

@[simp] theorem magUnits_zero : magUnits 0 = 0 := by simp [magUnits]

theorem magUnits_pos {c : Nat} : 0 < magUnits c ↔ 0 < c := by
  have := magUnits_lt_iff (a := 0) (b := c)
  rwa [magUnits_zero] at this

/-- A whole number of units with at most 53 significant bits is the value of some code. -/
theorem exists_code {a : Nat} (k : Nat) (h : a < 2 ^ 53) : ∃ c, magUnits c = a * 2 ^ k := by
  induction k generalizing a with
  | zero => exact ⟨a, by simpa using magUnits_shift (k := 0) (Nat.le_of_lt h) (.inl rfl)⟩
  | succ k ih =>
    rcases Nat.lt_or_ge a (2 ^ 52) with hlt | hge
    · obtain ⟨c, hc⟩ := ih (a := 2 * a) (by omega)
      exact ⟨c, by rw [hc, Nat.pow_succ]; ring⟩
    · exact ⟨(k + 1) * 2 ^ 52 + a, magUnits_shift (Nat.le_of_lt h) (.inr hge)⟩

/-! ## Rounding -/

theorem spacing_lt (t : Nat) : t < 2 ^ (spacing t + 53) := by
  rcases Nat.eq_zero_or_pos t with rfl | h
  · exact Nat.two_pow_pos _
  · apply (Nat.log2_lt (by omega)).mp
    unfold spacing; omega

theorem le_of_spacing_pos {t : Nat} (h : 0 < spacing t) : 2 ^ (spacing t + 52) ≤ t := by
  have ht : t ≠ 0 := by
    rintro rfl
    simp [spacing] at h
  apply (Nat.le_log2 ht).mp
  unfold spacing at *; omega

/-- The neighbour a rounding picks from below: code c is the greatest whose value does not exceed p / q. -/
structure Below (p q c : Nat) : Prop where
  le : q * magUnits c ≤ p
  lt : p < q * magUnits (c + 1)

/-- Whether p / q, with c its neighbour from below, rounds up: past the midpoint, or on it with c odd. -/
abbrev RoundsUp (p q c : Nat) : Prop :=
  q * (magUnits c + magUnits (c + 1)) < 2 * p ∨ (2 * p = q * (magUnits c + magUnits (c + 1)) ∧ c % 2 = 1)

/-- What rounding does: the neighbour from below, or the next code, by the nearest-ties-to-even rule, and never beyond
infinity. -/
theorem roundMag_spec {p q : Nat} (hq : 0 < q) :
    ∃ c, Below p q c ∧
      ((RoundsUp p q c ∧ roundMag p q = Nat.min (c + 1) infMag) ∨
        (¬RoundsUp p q c ∧ roundMag p q = Nat.min c infMag)) := by
  generalize hk : spacing (p / q) = k
  have hd : 0 < q * 2 ^ k := Nat.mul_pos hq (Nat.two_pow_pos k)
  have hpq : p / (q * 2 ^ k) = p / q / 2 ^ k := (Nat.div_div_eq_div_mul p q (2 ^ k)).symm
  have hm : p / (q * 2 ^ k) < 2 ^ 53 := by
    rw [hpq]
    apply Nat.div_lt_of_lt_mul
    rw [← Nat.pow_add]
    simpa [hk] using spacing_lt (p / q)
  have hs : k = 0 ∨ 2 ^ 52 ≤ p / (q * 2 ^ k) := by
    rcases Nat.eq_zero_or_pos k with h | h
    · exact .inl h
    · refine .inr ?_
      rw [hpq, Nat.le_div_iff_mul_le (Nat.two_pow_pos k), ← Nat.pow_add, Nat.add_comm]
      simpa [hk] using le_of_spacing_pos (t := p / q) (by omega)
  generalize hmm : p / (q * 2 ^ k) = m at hm hs
  have hlo : magUnits (k * 2 ^ 52 + m) = m * 2 ^ k := magUnits_shift (Nat.le_of_lt hm) hs
  have hhi : magUnits (k * 2 ^ 52 + m + 1) = (m + 1) * 2 ^ k := magUnits_succ hm hs
  have hp : q * 2 ^ k * m + p % (q * 2 ^ k) = p := by rw [← hmm]; exact Nat.div_add_mod p (q * 2 ^ k)
  have hr : p % (q * 2 ^ k) < q * 2 ^ k := Nat.mod_lt _ hd
  have hodd : (k * 2 ^ 52 + m) % 2 = m % 2 := by omega
  generalize hrr : p % (q * 2 ^ k) = r at hp hr
  have e1 : q * magUnits (k * 2 ^ 52 + m) = q * 2 ^ k * m := by rw [hlo]; ring
  have e2 : q * magUnits (k * 2 ^ 52 + m + 1) = q * 2 ^ k * m + q * 2 ^ k := by rw [hhi]; ring
  have hup : RoundsUp p q (k * 2 ^ 52 + m) ↔ (q * 2 ^ k < 2 * r ∨ (2 * r = q * 2 ^ k ∧ m % 2 = 1)) := by
    unfold RoundsUp
    rw [Nat.mul_add, e1, e2, hodd]
    omega
  have hround : roundMag p q =
      Nat.min (k * 2 ^ 52 + if q * 2 ^ k < 2 * r ∨ (2 * r = q * 2 ^ k ∧ m % 2 = 1) then m + 1 else m) infMag := by
    unfold roundMag roundHalfEven
    simp only [hk, hmm, hrr]
  refine ⟨k * 2 ^ 52 + m, ⟨by omega, by omega⟩, ?_⟩
  by_cases h : q * 2 ^ k < 2 * r ∨ (2 * r = q * 2 ^ k ∧ m % 2 = 1)
  · exact .inl ⟨hup.mpr h, by rw [hround, if_pos h, Nat.add_assoc]⟩
  · exact .inr ⟨fun hh => h (hup.mp hh), by rw [hround, if_neg h]⟩

theorem roundMag_le_infMag (p q : Nat) : roundMag p q ≤ infMag := by
  unfold roundMag
  exact Nat.min_le_right _ _

theorem roundMag_lt (p q : Nat) : roundMag p q < 2 ^ 63 := Nat.lt_of_le_of_lt (roundMag_le_infMag p q) infMag_lt

/-- The neighbour from below is monotone in the exact value. -/
theorem Below.mono {p q c p' q' c' : Nat} (h : Below p q c) (h' : Below p' q' c') (hq : 0 < q)
    (hle : p * q' ≤ p' * q) : c ≤ c' := by
  by_contra hc
  have hu : magUnits (c' + 1) ≤ magUnits c := magUnits_le_iff.mpr (by omega)
  have h1 : q * q' * magUnits c ≤ p * q' := by nlinarith [h.le]
  have h2 : p' * q < q * q' * magUnits (c' + 1) := by nlinarith [h'.lt]
  have h3 : q * q' * magUnits (c' + 1) ≤ q * q' * magUnits c := Nat.mul_le_mul_left _ hu
  omega

theorem RoundsUp.mono {p q p' q' c : Nat} (h : RoundsUp p q c) (hq : 0 < q) (hq' : 0 < q')
    (hle : p * q' ≤ p' * q) : RoundsUp p' q' c := by
  unfold RoundsUp at *
  generalize magUnits c + magUnits (c + 1) = t at *
  rcases h with h | ⟨h, ho⟩
  · left
    have h1 := Nat.mul_lt_mul_of_pos_right h hq'
    refine Nat.lt_of_mul_lt_mul_left (a := q) ?_
    nlinarith
  · by_cases hlt : q' * t < 2 * p'
    · exact .inl hlt
    · refine .inr ⟨Nat.le_antisymm (Nat.le_of_not_lt hlt) ?_, ho⟩
      have h1 : q * (q' * t) ≤ q * (2 * p') := by nlinarith
      exact Nat.le_of_mul_le_mul_left h1 hq

/-- Rounding is monotone. -/
theorem roundMag_mono {p q p' q' : Nat} (hq : 0 < q) (hq' : 0 < q') (h : p * q' ≤ p' * q) :
    roundMag p q ≤ roundMag p' q' := by
  obtain ⟨c, hb, hc⟩ := roundMag_spec (p := p) hq
  obtain ⟨c', hb', hc'⟩ := roundMag_spec (p := p') hq'
  have hle := hb.mono hb' hq h
  have main : (if RoundsUp p q c then c + 1 else c) ≤ (if RoundsUp p' q' c' then c' + 1 else c') := by
    rcases Nat.lt_or_ge c c' with hlt | hge
    · split <;> split <;> omega
    · obtain rfl : c = c' := by omega
      by_cases hu : RoundsUp p q c
      · rw [if_pos hu, if_pos (hu.mono hq hq' h)]
      · rw [if_neg hu]; split <;> omega
  simp only [Nat.min_def] at hc hc'
  rcases hc with ⟨hu, e⟩ | ⟨hu, e⟩ <;> rcases hc' with ⟨hu', e'⟩ | ⟨hu', e'⟩ <;>
    simp only [hu, hu', if_true, if_false] at main <;> rw [e, e'] <;> split <;> split <;> omega

/-- Rounding is exact on representable values, and overflows at the value of infinity. -/
theorem roundMag_exact {q c : Nat} (hq : 0 < q) (hc : c ≤ infMag) : roundMag (q * magUnits c) q = c := by
  obtain ⟨c', hb, h⟩ := roundMag_spec (p := q * magUnits c) hq
  have h1 : c' ≤ c := magUnits_le_iff.mp (Nat.le_of_mul_le_mul_left hb.le hq)
  have h2 : c < c' + 1 := magUnits_lt_iff.mp (Nat.lt_of_mul_lt_mul_left hb.lt)
  obtain rfl : c' = c := by omega
  have hlt := Nat.mul_lt_mul_of_pos_left (magUnits_lt_succ c') hq
  rcases h with ⟨hu, e⟩ | ⟨-, e⟩
  · unfold RoundsUp at hu
    rw [Nat.mul_add] at hu
    omega
  · rw [e]; exact Nat.min_eq_left hc

/-- A result between two representable values rounds to between them. -/
theorem roundMag_le_of_le {p q c : Nat} (hq : 0 < q) (hc : c ≤ infMag) (h : p ≤ q * magUnits c) : roundMag p q ≤ c := by
  rw [← roundMag_exact hq hc]
  exact roundMag_mono hq hq (Nat.mul_le_mul_right q h)

theorem le_roundMag_of_le {p q c : Nat} (hq : 0 < q) (hc : c ≤ infMag) (h : q * magUnits c ≤ p) : c ≤ roundMag p q := by
  conv_lhs => rw [← roundMag_exact hq hc]
  exact roundMag_mono hq hq (Nat.mul_le_mul_right q h)

/-! ## The operations on finite values -/

theorem unitScale_pos : 0 < unitScale := by decide +kernel

/-- The rounded signed integer number of units: the value every finite sum narrows to. -/
def roundInt (t : Int) : F64 := pack (decide (t < 0)) (roundMag t.natAbs 1)

/-- The sum of two finite values whose exact sum is not zero. -/
theorem add_of_ne {x y : F64} (hx : x.isFinite = true) (hy : y.isFinite = true) (h : x.val + y.val ≠ 0) :
    x.add y = roundInt (x.val + y.val) := by
  simp [add, roundInt, isNaN_of_isFinite hx, isNaN_of_isFinite hy, isInf_of_isFinite hx, isInf_of_isFinite hy, h]

/-- The sum of two finite values whose exact sum is zero. -/
theorem add_of_eq {x y : F64} (hx : x.isFinite = true) (hy : y.isFinite = true) (h : x.val + y.val = 0) :
    x.add y = pack (x.sgn && y.sgn) 0 := by
  simp [add, isNaN_of_isFinite hx, isNaN_of_isFinite hy, isInf_of_isFinite hx, isInf_of_isFinite hy, h]

/-- The product of two finite values. -/
theorem mul_finite {x y : F64} (hx : x.isFinite = true) (hy : y.isFinite = true) :
    x.mul y = pack (x.sgn != y.sgn) (roundMag (magUnits x.mag * magUnits y.mag) unitScale) := by
  simp [mul, isNaN_of_isFinite hx, isNaN_of_isFinite hy, isInf_of_isFinite hx, isInf_of_isFinite hy]

/-- The quotient of two finite values, the second not zero. -/
theorem div_finite {x y : F64} (hx : x.isFinite = true) (hy : y.isFinite = true) (h : y.mag ≠ 0) :
    x.div y = pack (x.sgn != y.sgn) (roundMag (magUnits x.mag * unitScale) (magUnits y.mag)) := by
  simp [div, isNaN_of_isFinite hx, isNaN_of_isFinite hy, isInf_of_isFinite hx, isInf_of_isFinite hy, h]

/-- The value of a rounded integer. -/
theorem val_roundInt (t : Int) :
    (roundInt t).val = if t < 0 then -(magUnits (roundMag t.natAbs 1) : Int) else (magUnits (roundMag t.natAbs 1) : Int) := by
  unfold roundInt
  rw [val_pack (roundMag_lt _ _)]
  simp

/-- Rounding a signed integer is monotone. -/
theorem val_roundInt_mono {t u : Int} (h : t ≤ u) : (roundInt t).val ≤ (roundInt u).val := by
  rw [val_roundInt, val_roundInt]
  split <;> split
  · have : roundMag u.natAbs 1 ≤ roundMag t.natAbs 1 := roundMag_mono Nat.one_pos Nat.one_pos (by omega)
    have := magUnits_le_iff.mpr this
    omega
  · omega
  · omega
  · have : roundMag t.natAbs 1 ≤ roundMag u.natAbs 1 := roundMag_mono Nat.one_pos Nat.one_pos (by omega)
    have := magUnits_le_iff.mpr this
    omega

/-- The value of a finite sum is the rounded exact sum, also where that is zero. -/
theorem val_add {x y : F64} (hx : x.isFinite = true) (hy : y.isFinite = true) :
    (x.add y).val = (roundInt (x.val + y.val)).val := by
  by_cases h : x.val + y.val = 0
  · rw [add_of_eq hx hy h, h, val_roundInt, val_pack (by norm_num)]
    have : roundMag 0 1 = 0 := by
      simpa using roundMag_exact (q := 1) (c := 0) Nat.one_pos (Nat.zero_le _)
    simp [this]
  · rw [add_of_ne hx hy h]

/-- Addition of finite values is monotone. -/
theorem val_add_mono {x y x' y' : F64} (hx : x.isFinite = true) (hy : y.isFinite = true) (hx' : x'.isFinite = true)
    (hy' : y'.isFinite = true) (h : x.val + y.val ≤ x'.val + y'.val) : (x.add y).val ≤ (x'.add y').val := by
  rw [val_add hx hy, val_add hx' hy']
  exact val_roundInt_mono h

/-- A sum is exact where it is representable. -/
theorem val_add_exact {x y z : F64} (hx : x.isFinite = true) (hy : y.isFinite = true) (hz : z.isFinite = true)
    (h : x.val + y.val = z.val) : (x.add y).val = z.val := by
  rw [val_add hx hy, h, val_roundInt]
  have hm : z.mag ≤ infMag := Nat.le_of_lt (isFinite_iff.mp hz)
  have hn : z.val.natAbs = magUnits z.mag := by unfold val; split <;> omega
  have := roundMag_exact (q := 1) Nat.one_pos hm
  rw [Nat.one_mul] at this
  rw [hn, this]
  have : z.val = if z.sgn then -(magUnits z.mag : Int) else (magUnits z.mag : Int) := rfl
  split at this <;> split <;> omega

theorem add_comm {x y : F64} (hx : x.isFinite = true) (hy : y.isFinite = true) : x.add y = y.add x := by
  by_cases h : x.val + y.val = 0
  · rw [add_of_eq hx hy h, add_of_eq hy hx (by omega), Bool.and_comm]
  · rw [add_of_ne hx hy h, add_of_ne hy hx (by omega), Int.add_comm]

/-! ## floor -/

theorem floor_of_finite {x : F64} (h : x.isFinite = true) :
    x.floor = if x.floorInt = 0 then pack x.sgn 0 else ofInt x.floorInt := by
  unfold floor; rw [if_pos h]

theorem floor_of_not_finite {x : F64} (h : x.isFinite = false) : x.floor = Config.floorNonFinite x := by
  unfold floor; simp [h]

/-! ## Comparisons of finite values -/

theorem lt_iff {x y : F64} (hx : x.isFinite = true) (hy : y.isFinite = true) : x.lt y = true ↔ x.val < y.val := by
  simp [lt, isNaN_of_isFinite hx, isNaN_of_isFinite hy]

theorem le_iff {x y : F64} (hx : x.isFinite = true) (hy : y.isFinite = true) : x.le y = true ↔ x.val ≤ y.val := by
  simp [le, isNaN_of_isFinite hx, isNaN_of_isFinite hy]

end Sys2Proof.F64
end

