-- ==== Sys2Proof/Laws/Memory.lean ====
section
/-! SUPPORT. The output block: a write is read back, leaves every other frame alone, and keeps the canonical form; blocks in
canonical form that read alike are equal. -/

namespace Sys2Proof.Machine.Memory

@[simp] theorem read_nil (n : Nat) : read [] n = none := rfl

@[simp] theorem read_write_same (mem : Memory) (n : Nat) (v : F64) : read (write mem n v) n = some v := by
  induction mem with
  | nil => simp [write, read]
  | cons a rest ih =>
    unfold write
    split
    · simp [read]
    · split
      · simp [read]
      · rename_i h
        simp [read, Ne.symm h, ih]

theorem read_write_other {mem : Memory} {n k : Nat} (v : F64) (h : k ≠ n) : read (write mem n v) k = read mem k := by
  induction mem with
  | nil => simp [write, read, Ne.symm h]
  | cons a rest ih =>
    unfold write
    split
    · simp [read, Ne.symm h]
    · split
      · rename_i hna
        subst hna
        simp [read, Ne.symm h]
      · simp [read, ih]

/-- Reading after a write, in one equation. -/
theorem read_write (mem : Memory) (n k : Nat) (v : F64) :
    read (write mem n v) k = if k = n then some v else read mem k := by
  split
  · rename_i h; subst h; exact read_write_same mem k v
  · exact read_write_other v ‹_›

/-- Every frame of the block lies above `lo`. -/
def above (lo : Nat) (mem : Memory) : Prop := ∀ a ∈ mem, lo < a.1

theorem wf_cons {a : Nat × F64} {rest : Memory} : wf (a :: rest) = true ↔ above a.1 rest ∧ wf rest = true := by
  induction rest generalizing a with
  | nil => simp [wf, above]
  | cons b rest ih =>
    constructor
    · intro h
      simp only [wf, Bool.and_eq_true, decide_eq_true_eq] at h
      refine ⟨fun c hc => ?_, h.2⟩
      rcases List.mem_cons.mp hc with rfl | hc
      · exact h.1
      · exact Nat.lt_trans h.1 ((ih.mp h.2).1 c hc)
    · intro h
      simp only [wf, Bool.and_eq_true, decide_eq_true_eq]
      exact ⟨h.1 b (List.mem_cons_self ..), h.2⟩

theorem above_write {lo n : Nat} {mem : Memory} {v : F64} (h : above lo mem) (hn : lo < n) : above lo (write mem n v) := by
  induction mem with
  | nil => simpa [write, above] using hn
  | cons a rest ih =>
    have hr : above lo rest := fun c hc => h c (List.mem_cons_of_mem _ hc)
    have ha := h a (List.mem_cons_self ..)
    unfold write
    split
    · intro c hc
      rcases List.mem_cons.mp hc with rfl | hc
      · exact hn
      · exact h c hc
    · split
      · intro c hc
        rcases List.mem_cons.mp hc with rfl | hc
        · exact hn
        · exact hr c hc
      · intro c hc
        rcases List.mem_cons.mp hc with rfl | hc
        · exact ha
        · exact ih hr c hc

/-- A write keeps the canonical form. -/
theorem write_wf {mem : Memory} (n : Nat) (v : F64) (h : wf mem = true) : wf (write mem n v) = true := by
  induction mem with
  | nil => rfl
  | cons a rest ih =>
    have hr := wf_cons.mp h
    unfold write
    split
    · rename_i hlt
      refine wf_cons.mpr ⟨fun c hc => ?_, h⟩
      rcases List.mem_cons.mp hc with rfl | hc
      · exact hlt
      · exact Nat.lt_trans hlt (hr.1 c hc)
    · split
      · rename_i hna
        subst hna
        exact wf_cons.mpr ⟨hr.1, hr.2⟩
      · rename_i hnl hne
        exact wf_cons.mpr ⟨above_write hr.1 (by simp only [] at *; omega), ih hr.2⟩

theorem read_eq_none_of_above {lo : Nat} {mem : Memory} (h : above lo mem) {n : Nat} (hn : n ≤ lo) : read mem n = none := by
  induction mem with
  | nil => rfl
  | cons a rest ih =>
    have ha := h a (List.mem_cons_self ..)
    rw [show read (a :: rest) n = if a.1 = n then some a.2 else read rest n from rfl, if_neg (by omega)]
    exact ih fun c hc => h c (List.mem_cons_of_mem _ hc)

/-- Blocks in canonical form that read alike are equal. -/
theorem ext_of_read {m1 m2 : Memory} (h1 : wf m1 = true) (h2 : wf m2 = true) (h : ∀ n, read m1 n = read m2 n) : m1 = m2 := by
  induction m1 generalizing m2 with
  | nil =>
    cases m2 with
    | nil => rfl
    | cons b _ => simpa [read] using h b.1
  | cons a r1 ih =>
    cases m2 with
    | nil => simpa [read] using h a.1
    | cons b r2 =>
      have ha := wf_cons.mp h1
      have hb := wf_cons.mp h2
      have hab : a.1 = b.1 := by
        rcases Nat.lt_trichotomy a.1 b.1 with hlt | heq | hgt
        · have := h a.1
          rw [show read (a :: r1) a.1 = some a.2 by simp [read],
            show read (b :: r2) a.1 = read r2 a.1 by simp [read, Nat.ne_of_gt hlt],
            read_eq_none_of_above hb.1 (Nat.le_of_lt hlt)] at this
          simp at this
        · exact heq
        · have := h b.1
          rw [show read (b :: r2) b.1 = some b.2 by simp [read],
            show read (a :: r1) b.1 = read r1 b.1 by simp [read, Nat.ne_of_gt hgt],
            read_eq_none_of_above ha.1 (Nat.le_of_lt hgt)] at this
          simp at this
      have hv : a.2 = b.2 := by
        have := h a.1
        simpa [read, hab] using this
      have hrest : r1 = r2 := by
        refine ih ha.2 hb.2 fun n => ?_
        by_cases hn : a.1 = n
        · rw [read_eq_none_of_above ha.1 (Nat.le_of_eq hn.symm),
            read_eq_none_of_above hb.1 (Nat.le_of_eq (by omega))]
        · have := h n
          simpa [read, hn, show b.1 ≠ n by omega] using this
      rw [hrest, Prod.ext hab hv]

end Sys2Proof.Machine.Memory
end

