-- ==== Sys2Proof/Laws/State.lean ====
section
/-! SUPPORT. One lemma per field per update of State, each true by unfolding the update, so that no proof unfolds one again. -/

namespace Sys2Proof.Machine

/-! ## memWrite -/

@[simp] theorem State.memWrite_phase (s : State) (n : Nat) (v : F64) : (s.memWrite n v).phase = s.phase := rfl
@[simp] theorem State.memWrite_phase2 (s : State) (n : Nat) (v : F64) : (s.memWrite n v).phase2 = s.phase2 := rfl
@[simp] theorem State.memWrite_ssp (s : State) (n : Nat) (v : F64) : (s.memWrite n v).ssp = s.ssp := rfl
@[simp] theorem State.memWrite_dcX (s : State) (n : Nat) (v : F64) : (s.memWrite n v).dcX = s.dcX := rfl
@[simp] theorem State.memWrite_dcY (s : State) (n : Nat) (v : F64) : (s.memWrite n v).dcY = s.dcY := rfl
@[simp] theorem State.memWrite_sr (s : State) (n : Nat) (v : F64) : (s.memWrite n v).sr = s.sr := rfl
@[simp] theorem State.memWrite_initd (s : State) (n : Nat) (v : F64) : (s.memWrite n v).initd = s.initd := rfl
@[simp] theorem State.memWrite_fault (s : State) (n : Nat) (v : F64) : (s.memWrite n v).fault = s.fault := rfl
@[simp] theorem State.memWrite_finfo (s : State) (n : Nat) (v : F64) : (s.memWrite n v).finfo = s.finfo := rfl
@[simp] theorem State.memWrite_rend (s : State) (n : Nat) (v : F64) : (s.memWrite n v).rend = s.rend := rfl
@[simp] theorem State.memWrite_smp (s : State) (n : Nat) (v : F64) : (s.memWrite n v).smp = s.smp := rfl
@[simp] theorem State.memWrite_out (s : State) (n : Nat) (v : F64) : (s.memWrite n v).out = s.out.write n v := rfl
@[simp] theorem State.memWrite_cmds (s : State) (n : Nat) (v : F64) : (s.memWrite n v).cmds = s.cmds := rfl
@[simp] theorem State.memWrite_resp (s : State) (n : Nat) (v : F64) : (s.memWrite n v).resp = s.resp := rfl
@[simp] theorem State.memWrite_nmax (s : State) (n : Nat) (v : F64) : (s.memWrite n v).nmax = s.nmax := rfl

/-! ## respond -/

@[simp] theorem State.respond_phase (s : State) (st : Status) (ka : Option Bool) : (s.respond st ka).phase = s.phase := rfl
@[simp] theorem State.respond_phase2 (s : State) (st : Status) (ka : Option Bool) : (s.respond st ka).phase2 = s.phase2 := rfl
@[simp] theorem State.respond_ssp (s : State) (st : Status) (ka : Option Bool) : (s.respond st ka).ssp = s.ssp := rfl
@[simp] theorem State.respond_dcX (s : State) (st : Status) (ka : Option Bool) : (s.respond st ka).dcX = s.dcX := rfl
@[simp] theorem State.respond_dcY (s : State) (st : Status) (ka : Option Bool) : (s.respond st ka).dcY = s.dcY := rfl
@[simp] theorem State.respond_sr (s : State) (st : Status) (ka : Option Bool) : (s.respond st ka).sr = s.sr := rfl
@[simp] theorem State.respond_initd (s : State) (st : Status) (ka : Option Bool) : (s.respond st ka).initd = s.initd := rfl
@[simp] theorem State.respond_fault (s : State) (st : Status) (ka : Option Bool) : (s.respond st ka).fault = s.fault := rfl
@[simp] theorem State.respond_finfo (s : State) (st : Status) (ka : Option Bool) : (s.respond st ka).finfo = s.finfo := rfl
@[simp] theorem State.respond_rend (s : State) (st : Status) (ka : Option Bool) : (s.respond st ka).rend = s.rend := rfl
@[simp] theorem State.respond_smp (s : State) (st : Status) (ka : Option Bool) : (s.respond st ka).smp = s.smp := rfl
@[simp] theorem State.respond_out (s : State) (st : Status) (ka : Option Bool) : (s.respond st ka).out = s.out := rfl
@[simp] theorem State.respond_cmds (s : State) (st : Status) (ka : Option Bool) : (s.respond st ka).cmds = s.cmds := rfl
@[simp] theorem State.respond_resp (s : State) (st : Status) (ka : Option Bool) : (s.respond st ka).resp = some ⟨st, ka⟩ := rfl
@[simp] theorem State.respond_nmax (s : State) (st : Status) (ka : Option Bool) : (s.respond st ka).nmax = s.nmax := rfl

/-! ## respondFaulted -/

@[simp] theorem State.respondFaulted_phase (s : State) (ka : Option Bool) : (s.respondFaulted ka).phase = s.phase := rfl
@[simp] theorem State.respondFaulted_phase2 (s : State) (ka : Option Bool) : (s.respondFaulted ka).phase2 = s.phase2 := rfl
@[simp] theorem State.respondFaulted_ssp (s : State) (ka : Option Bool) : (s.respondFaulted ka).ssp = s.ssp := rfl
@[simp] theorem State.respondFaulted_dcX (s : State) (ka : Option Bool) : (s.respondFaulted ka).dcX = s.dcX := rfl
@[simp] theorem State.respondFaulted_dcY (s : State) (ka : Option Bool) : (s.respondFaulted ka).dcY = s.dcY := rfl
@[simp] theorem State.respondFaulted_sr (s : State) (ka : Option Bool) : (s.respondFaulted ka).sr = s.sr := rfl
@[simp] theorem State.respondFaulted_initd (s : State) (ka : Option Bool) : (s.respondFaulted ka).initd = s.initd := rfl
@[simp] theorem State.respondFaulted_fault (s : State) (ka : Option Bool) : (s.respondFaulted ka).fault = s.fault := rfl
@[simp] theorem State.respondFaulted_finfo (s : State) (ka : Option Bool) : (s.respondFaulted ka).finfo = s.finfo := rfl
@[simp] theorem State.respondFaulted_rend (s : State) (ka : Option Bool) : (s.respondFaulted ka).rend = s.rend := rfl
@[simp] theorem State.respondFaulted_smp (s : State) (ka : Option Bool) : (s.respondFaulted ka).smp = s.smp := rfl
@[simp] theorem State.respondFaulted_out (s : State) (ka : Option Bool) : (s.respondFaulted ka).out = s.out := rfl
@[simp] theorem State.respondFaulted_cmds (s : State) (ka : Option Bool) : (s.respondFaulted ka).cmds = s.cmds := rfl
@[simp] theorem State.respondFaulted_resp (s : State) (ka : Option Bool) : (s.respondFaulted ka).resp = some ⟨.faulted s.fault s.finfo, ka⟩ := rfl
@[simp] theorem State.respondFaulted_nmax (s : State) (ka : Option Bool) : (s.respondFaulted ka).nmax = s.nmax := rfl

/-! ## raiseFault -/

@[simp] theorem State.raiseFault_phase (s : State) (c : FaultCode) (p : Fin 8) (i : Nat) : (s.raiseFault c p i).phase = s.phase := rfl
@[simp] theorem State.raiseFault_phase2 (s : State) (c : FaultCode) (p : Fin 8) (i : Nat) : (s.raiseFault c p i).phase2 = s.phase2 := rfl
@[simp] theorem State.raiseFault_ssp (s : State) (c : FaultCode) (p : Fin 8) (i : Nat) : (s.raiseFault c p i).ssp = s.ssp := rfl
@[simp] theorem State.raiseFault_dcX (s : State) (c : FaultCode) (p : Fin 8) (i : Nat) : (s.raiseFault c p i).dcX = s.dcX := rfl
@[simp] theorem State.raiseFault_dcY (s : State) (c : FaultCode) (p : Fin 8) (i : Nat) : (s.raiseFault c p i).dcY = s.dcY := rfl
@[simp] theorem State.raiseFault_sr (s : State) (c : FaultCode) (p : Fin 8) (i : Nat) : (s.raiseFault c p i).sr = s.sr := rfl
@[simp] theorem State.raiseFault_initd (s : State) (c : FaultCode) (p : Fin 8) (i : Nat) : (s.raiseFault c p i).initd = s.initd := rfl
@[simp] theorem State.raiseFault_fault (s : State) (c : FaultCode) (p : Fin 8) (i : Nat) : (s.raiseFault c p i).fault = c := rfl
@[simp] theorem State.raiseFault_finfo (s : State) (c : FaultCode) (p : Fin 8) (i : Nat) : (s.raiseFault c p i).finfo = ⟨p, i⟩ := rfl
@[simp] theorem State.raiseFault_rend (s : State) (c : FaultCode) (p : Fin 8) (i : Nat) : (s.raiseFault c p i).rend = s.rend := rfl
@[simp] theorem State.raiseFault_smp (s : State) (c : FaultCode) (p : Fin 8) (i : Nat) : (s.raiseFault c p i).smp = s.smp := rfl
@[simp] theorem State.raiseFault_out (s : State) (c : FaultCode) (p : Fin 8) (i : Nat) : (s.raiseFault c p i).out = s.out := rfl
@[simp] theorem State.raiseFault_cmds (s : State) (c : FaultCode) (p : Fin 8) (i : Nat) : (s.raiseFault c p i).cmds = s.cmds := rfl
@[simp] theorem State.raiseFault_resp (s : State) (c : FaultCode) (p : Fin 8) (i : Nat) : (s.raiseFault c p i).resp = some ⟨.faulted c ⟨p, i⟩, some false⟩ := rfl
@[simp] theorem State.raiseFault_nmax (s : State) (c : FaultCode) (p : Fin 8) (i : Nat) : (s.raiseFault c p i).nmax = s.nmax := rfl

/-! ## setPhases -/

@[simp] theorem State.setPhases_phase (s : State) (off : Seven F64) : (s.setPhases off).phase = .zero := rfl
@[simp] theorem State.setPhases_phase2 (s : State) (off : Seven F64) : (s.setPhases off).phase2 = .zero := rfl
@[simp] theorem State.setPhases_ssp (s : State) (off : Seven F64) : (s.setPhases off).ssp = off := rfl
@[simp] theorem State.setPhases_dcX (s : State) (off : Seven F64) : (s.setPhases off).dcX = s.dcX := rfl
@[simp] theorem State.setPhases_dcY (s : State) (off : Seven F64) : (s.setPhases off).dcY = s.dcY := rfl
@[simp] theorem State.setPhases_sr (s : State) (off : Seven F64) : (s.setPhases off).sr = s.sr := rfl
@[simp] theorem State.setPhases_initd (s : State) (off : Seven F64) : (s.setPhases off).initd = s.initd := rfl
@[simp] theorem State.setPhases_fault (s : State) (off : Seven F64) : (s.setPhases off).fault = s.fault := rfl
@[simp] theorem State.setPhases_finfo (s : State) (off : Seven F64) : (s.setPhases off).finfo = s.finfo := rfl
@[simp] theorem State.setPhases_rend (s : State) (off : Seven F64) : (s.setPhases off).rend = s.rend := rfl
@[simp] theorem State.setPhases_smp (s : State) (off : Seven F64) : (s.setPhases off).smp = s.smp := rfl
@[simp] theorem State.setPhases_out (s : State) (off : Seven F64) : (s.setPhases off).out = s.out := rfl
@[simp] theorem State.setPhases_cmds (s : State) (off : Seven F64) : (s.setPhases off).cmds = s.cmds := rfl
@[simp] theorem State.setPhases_resp (s : State) (off : Seven F64) : (s.setPhases off).resp = s.resp := rfl
@[simp] theorem State.setPhases_nmax (s : State) (off : Seven F64) : (s.setPhases off).nmax = s.nmax := rfl

/-! ## setDc -/

@[simp] theorem State.setDc_phase (s : State) (x y : F64) : (s.setDc x y).phase = s.phase := rfl
@[simp] theorem State.setDc_phase2 (s : State) (x y : F64) : (s.setDc x y).phase2 = s.phase2 := rfl
@[simp] theorem State.setDc_ssp (s : State) (x y : F64) : (s.setDc x y).ssp = s.ssp := rfl
@[simp] theorem State.setDc_dcX (s : State) (x y : F64) : (s.setDc x y).dcX = x := rfl
@[simp] theorem State.setDc_dcY (s : State) (x y : F64) : (s.setDc x y).dcY = y := rfl
@[simp] theorem State.setDc_sr (s : State) (x y : F64) : (s.setDc x y).sr = s.sr := rfl
@[simp] theorem State.setDc_initd (s : State) (x y : F64) : (s.setDc x y).initd = s.initd := rfl
@[simp] theorem State.setDc_fault (s : State) (x y : F64) : (s.setDc x y).fault = s.fault := rfl
@[simp] theorem State.setDc_finfo (s : State) (x y : F64) : (s.setDc x y).finfo = s.finfo := rfl
@[simp] theorem State.setDc_rend (s : State) (x y : F64) : (s.setDc x y).rend = s.rend := rfl
@[simp] theorem State.setDc_smp (s : State) (x y : F64) : (s.setDc x y).smp = s.smp := rfl
@[simp] theorem State.setDc_out (s : State) (x y : F64) : (s.setDc x y).out = s.out := rfl
@[simp] theorem State.setDc_cmds (s : State) (x y : F64) : (s.setDc x y).cmds = s.cmds := rfl
@[simp] theorem State.setDc_resp (s : State) (x y : F64) : (s.setDc x y).resp = s.resp := rfl
@[simp] theorem State.setDc_nmax (s : State) (x y : F64) : (s.setDc x y).nmax = s.nmax := rfl

/-! ## setResult -/

@[simp] theorem State.setResult_phase (s : State) (x : F64) : (s.setResult x).phase = s.phase := rfl
@[simp] theorem State.setResult_phase2 (s : State) (x : F64) : (s.setResult x).phase2 = s.phase2 := rfl
@[simp] theorem State.setResult_ssp (s : State) (x : F64) : (s.setResult x).ssp = s.ssp := rfl
@[simp] theorem State.setResult_dcX (s : State) (x : F64) : (s.setResult x).dcX = s.dcX := rfl
@[simp] theorem State.setResult_dcY (s : State) (x : F64) : (s.setResult x).dcY = s.dcY := rfl
@[simp] theorem State.setResult_sr (s : State) (x : F64) : (s.setResult x).sr = s.sr := rfl
@[simp] theorem State.setResult_initd (s : State) (x : F64) : (s.setResult x).initd = s.initd := rfl
@[simp] theorem State.setResult_fault (s : State) (x : F64) : (s.setResult x).fault = s.fault := rfl
@[simp] theorem State.setResult_finfo (s : State) (x : F64) : (s.setResult x).finfo = s.finfo := rfl
@[simp] theorem State.setResult_rend (s : State) (x : F64) : (s.setResult x).rend = s.rend := rfl
@[simp] theorem State.setResult_smp (s : State) (x : F64) : (s.setResult x).smp = { s.smp with x := x } := rfl
@[simp] theorem State.setResult_out (s : State) (x : F64) : (s.setResult x).out = s.out := rfl
@[simp] theorem State.setResult_cmds (s : State) (x : F64) : (s.setResult x).cmds = s.cmds := rfl
@[simp] theorem State.setResult_resp (s : State) (x : F64) : (s.setResult x).resp = s.resp := rfl
@[simp] theorem State.setResult_nmax (s : State) (x : F64) : (s.setResult x).nmax = s.nmax := rfl

/-! ## nextSample -/

@[simp] theorem nextSample_phase (s : State) (pr : Progress) : (nextSample s pr).phase = s.phase := rfl
@[simp] theorem nextSample_phase2 (s : State) (pr : Progress) : (nextSample s pr).phase2 = s.phase2 := rfl
@[simp] theorem nextSample_ssp (s : State) (pr : Progress) : (nextSample s pr).ssp = s.ssp := rfl
@[simp] theorem nextSample_dcX (s : State) (pr : Progress) : (nextSample s pr).dcX = s.dcX := rfl
@[simp] theorem nextSample_dcY (s : State) (pr : Progress) : (nextSample s pr).dcY = s.dcY := rfl
@[simp] theorem nextSample_sr (s : State) (pr : Progress) : (nextSample s pr).sr = s.sr := rfl
@[simp] theorem nextSample_initd (s : State) (pr : Progress) : (nextSample s pr).initd = s.initd := rfl
@[simp] theorem nextSample_fault (s : State) (pr : Progress) : (nextSample s pr).fault = s.fault := rfl
@[simp] theorem nextSample_finfo (s : State) (pr : Progress) : (nextSample s pr).finfo = s.finfo := rfl
@[simp] theorem nextSample_rend (s : State) (pr : Progress) : (nextSample s pr).rend = some { pr with index := pr.index + 1 } := rfl
@[simp] theorem nextSample_smp (s : State) (pr : Progress) : (nextSample s pr).smp = .idle := rfl
@[simp] theorem nextSample_out (s : State) (pr : Progress) : (nextSample s pr).out = s.out := rfl
@[simp] theorem nextSample_cmds (s : State) (pr : Progress) : (nextSample s pr).cmds = s.cmds := rfl
@[simp] theorem nextSample_resp (s : State) (pr : Progress) : (nextSample s pr).resp = s.resp := rfl
@[simp] theorem nextSample_nmax (s : State) (pr : Progress) : (nextSample s pr).nmax = s.nmax := rfl

/-! ## finishRender -/

@[simp] theorem finishRender_phase (s : State) : (finishRender s).phase = s.phase := rfl
@[simp] theorem finishRender_phase2 (s : State) : (finishRender s).phase2 = s.phase2 := rfl
@[simp] theorem finishRender_ssp (s : State) : (finishRender s).ssp = s.ssp := rfl
@[simp] theorem finishRender_dcX (s : State) : (finishRender s).dcX = s.dcX := rfl
@[simp] theorem finishRender_dcY (s : State) : (finishRender s).dcY = s.dcY := rfl
@[simp] theorem finishRender_sr (s : State) : (finishRender s).sr = s.sr := rfl
@[simp] theorem finishRender_initd (s : State) : (finishRender s).initd = s.initd := rfl
@[simp] theorem finishRender_fault (s : State) : (finishRender s).fault = s.fault := rfl
@[simp] theorem finishRender_finfo (s : State) : (finishRender s).finfo = s.finfo := rfl
@[simp] theorem finishRender_rend (s : State) : (finishRender s).rend = none := rfl
@[simp] theorem finishRender_smp (s : State) : (finishRender s).smp = .idle := rfl
@[simp] theorem finishRender_out (s : State) : (finishRender s).out = s.out := rfl
@[simp] theorem finishRender_cmds (s : State) : (finishRender s).cmds = s.cmds := rfl
@[simp] theorem finishRender_resp (s : State) : (finishRender s).resp = some ⟨.ok, some true⟩ := rfl
@[simp] theorem finishRender_nmax (s : State) : (finishRender s).nmax = s.nmax := rfl

/-! ## closeSample -/

@[simp] theorem closeSample_phase (s : State) (n : Nat) : (closeSample s n).phase = s.phase := rfl
@[simp] theorem closeSample_phase2 (s : State) (n : Nat) : (closeSample s n).phase2 = s.phase2 := rfl
@[simp] theorem closeSample_ssp (s : State) (n : Nat) : (closeSample s n).ssp = s.ssp := rfl
@[simp] theorem closeSample_dcX (s : State) (n : Nat) : (closeSample s n).dcX = s.smp.x := rfl
@[simp] theorem closeSample_dcY (s : State) (n : Nat) : (closeSample s n).dcY = dcOutput s.dcX s.dcY s.smp.x := rfl
@[simp] theorem closeSample_sr (s : State) (n : Nat) : (closeSample s n).sr = s.sr := rfl
@[simp] theorem closeSample_initd (s : State) (n : Nat) : (closeSample s n).initd = s.initd := rfl
@[simp] theorem closeSample_fault (s : State) (n : Nat) : (closeSample s n).fault = s.fault := rfl
@[simp] theorem closeSample_finfo (s : State) (n : Nat) : (closeSample s n).finfo = s.finfo := rfl
@[simp] theorem closeSample_rend (s : State) (n : Nat) : (closeSample s n).rend = s.rend := rfl
@[simp] theorem closeSample_smp (s : State) (n : Nat) : (closeSample s n).smp = s.smp := rfl
@[simp] theorem closeSample_out (s : State) (n : Nat) : (closeSample s n).out = s.out.write n ((dcOutput s.dcX s.dcY s.smp.x).mul s.smp.g) := rfl
@[simp] theorem closeSample_cmds (s : State) (n : Nat) : (closeSample s n).cmds = s.cmds := rfl
@[simp] theorem closeSample_resp (s : State) (n : Nat) : (closeSample s n).resp = s.resp := rfl
@[simp] theorem closeSample_nmax (s : State) (n : Nat) : (closeSample s n).nmax = s.nmax := rfl

/-! ## createVoice -/

@[simp] theorem createVoice_phase (s : State) (r : F64) (off : Seven F64) : (createVoice s r off).phase = .zero := rfl
@[simp] theorem createVoice_phase2 (s : State) (r : F64) (off : Seven F64) : (createVoice s r off).phase2 = .zero := rfl
@[simp] theorem createVoice_ssp (s : State) (r : F64) (off : Seven F64) : (createVoice s r off).ssp = off := rfl
@[simp] theorem createVoice_dcX (s : State) (r : F64) (off : Seven F64) : (createVoice s r off).dcX = .zero := rfl
@[simp] theorem createVoice_dcY (s : State) (r : F64) (off : Seven F64) : (createVoice s r off).dcY = .zero := rfl
@[simp] theorem createVoice_sr (s : State) (r : F64) (off : Seven F64) : (createVoice s r off).sr = r := rfl
@[simp] theorem createVoice_initd (s : State) (r : F64) (off : Seven F64) : (createVoice s r off).initd = true := rfl
@[simp] theorem createVoice_fault (s : State) (r : F64) (off : Seven F64) : (createVoice s r off).fault = s.fault := rfl
@[simp] theorem createVoice_finfo (s : State) (r : F64) (off : Seven F64) : (createVoice s r off).finfo = s.finfo := rfl
@[simp] theorem createVoice_rend (s : State) (r : F64) (off : Seven F64) : (createVoice s r off).rend = s.rend := rfl
@[simp] theorem createVoice_smp (s : State) (r : F64) (off : Seven F64) : (createVoice s r off).smp = s.smp := rfl
@[simp] theorem createVoice_out (s : State) (r : F64) (off : Seven F64) : (createVoice s r off).out = s.out := rfl
@[simp] theorem createVoice_cmds (s : State) (r : F64) (off : Seven F64) : (createVoice s r off).cmds = s.cmds := rfl
@[simp] theorem createVoice_resp (s : State) (r : F64) (off : Seven F64) : (createVoice s r off).resp = s.resp := rfl
@[simp] theorem createVoice_nmax (s : State) (r : F64) (off : Seven F64) : (createVoice s r off).nmax = s.nmax := rfl

/-! ## beginRender -/

@[simp] theorem beginRender_phase (s : State) (n : Nat) (src : Sources) : (beginRender s n src).phase = s.phase := rfl
@[simp] theorem beginRender_phase2 (s : State) (n : Nat) (src : Sources) : (beginRender s n src).phase2 = s.phase2 := rfl
@[simp] theorem beginRender_ssp (s : State) (n : Nat) (src : Sources) : (beginRender s n src).ssp = s.ssp := rfl
@[simp] theorem beginRender_dcX (s : State) (n : Nat) (src : Sources) : (beginRender s n src).dcX = s.dcX := rfl
@[simp] theorem beginRender_dcY (s : State) (n : Nat) (src : Sources) : (beginRender s n src).dcY = s.dcY := rfl
@[simp] theorem beginRender_sr (s : State) (n : Nat) (src : Sources) : (beginRender s n src).sr = s.sr := rfl
@[simp] theorem beginRender_initd (s : State) (n : Nat) (src : Sources) : (beginRender s n src).initd = s.initd := rfl
@[simp] theorem beginRender_fault (s : State) (n : Nat) (src : Sources) : (beginRender s n src).fault = s.fault := rfl
@[simp] theorem beginRender_finfo (s : State) (n : Nat) (src : Sources) : (beginRender s n src).finfo = s.finfo := rfl
@[simp] theorem beginRender_rend (s : State) (n : Nat) (src : Sources) : (beginRender s n src).rend = some ⟨n, src, 0⟩ := rfl
@[simp] theorem beginRender_smp (s : State) (n : Nat) (src : Sources) : (beginRender s n src).smp = s.smp := rfl
@[simp] theorem beginRender_out (s : State) (n : Nat) (src : Sources) : (beginRender s n src).out = s.out := rfl
@[simp] theorem beginRender_cmds (s : State) (n : Nat) (src : Sources) : (beginRender s n src).cmds = s.cmds := rfl
@[simp] theorem beginRender_resp (s : State) (n : Nat) (src : Sources) : (beginRender s n src).resp = s.resp := rfl
@[simp] theorem beginRender_nmax (s : State) (n : Nat) (src : Sources) : (beginRender s n src).nmax = s.nmax := rfl

/-! ## openSample -/

@[simp] theorem openSample_phase (P : Params) (s : State) (r : Resolved) : (openSample P s r).phase = advance s.phase (inc s.sr (clampFreq P s.sr r.freq)) := rfl
@[simp] theorem openSample_phase2 (P : Params) (s : State) (r : Resolved) : (openSample P s r).phase2 = s.phase2 := rfl
@[simp] theorem openSample_ssp (P : Params) (s : State) (r : Resolved) : (openSample P s r).ssp = s.ssp := rfl
@[simp] theorem openSample_dcX (P : Params) (s : State) (r : Resolved) : (openSample P s r).dcX = s.dcX := rfl
@[simp] theorem openSample_dcY (P : Params) (s : State) (r : Resolved) : (openSample P s r).dcY = s.dcY := rfl
@[simp] theorem openSample_sr (P : Params) (s : State) (r : Resolved) : (openSample P s r).sr = s.sr := rfl
@[simp] theorem openSample_initd (P : Params) (s : State) (r : Resolved) : (openSample P s r).initd = s.initd := rfl
@[simp] theorem openSample_fault (P : Params) (s : State) (r : Resolved) : (openSample P s r).fault = s.fault := rfl
@[simp] theorem openSample_finfo (P : Params) (s : State) (r : Resolved) : (openSample P s r).finfo = s.finfo := rfl
@[simp] theorem openSample_rend (P : Params) (s : State) (r : Resolved) : (openSample P s r).rend = s.rend := rfl
@[simp] theorem openSample_smp (P : Params) (s : State) (r : Resolved) : (openSample P s r).smp = latch P s.sr s.phase r := rfl
@[simp] theorem openSample_out (P : Params) (s : State) (r : Resolved) : (openSample P s r).out = s.out := rfl
@[simp] theorem openSample_cmds (P : Params) (s : State) (r : Resolved) : (openSample P s r).cmds = s.cmds := rfl
@[simp] theorem openSample_resp (P : Params) (s : State) (r : Resolved) : (openSample P s r).resp = s.resp := rfl
@[simp] theorem openSample_nmax (P : Params) (s : State) (r : Resolved) : (openSample P s r).nmax = s.nmax := rfl

/-! ## the generators -/

@[simp] theorem sawOp_phase (s : State) : (sawOp s).phase = s.phase := rfl
@[simp] theorem sawOp_phase2 (s : State) : (sawOp s).phase2 = s.phase2 := rfl
@[simp] theorem sawOp_ssp (s : State) : (sawOp s).ssp = s.ssp := rfl
@[simp] theorem sawOp_dcX (s : State) : (sawOp s).dcX = s.dcX := rfl
@[simp] theorem sawOp_dcY (s : State) : (sawOp s).dcY = s.dcY := rfl
@[simp] theorem sawOp_sr (s : State) : (sawOp s).sr = s.sr := rfl
@[simp] theorem sawOp_initd (s : State) : (sawOp s).initd = s.initd := rfl
@[simp] theorem sawOp_fault (s : State) : (sawOp s).fault = s.fault := rfl
@[simp] theorem sawOp_finfo (s : State) : (sawOp s).finfo = s.finfo := rfl
@[simp] theorem sawOp_rend (s : State) : (sawOp s).rend = s.rend := rfl
@[simp] theorem sawOp_smp (s : State) : (sawOp s).smp = { s.smp with x := saw s.smp.p0 s.smp.dt } := rfl
@[simp] theorem sawOp_out (s : State) : (sawOp s).out = s.out := rfl
@[simp] theorem sawOp_cmds (s : State) : (sawOp s).cmds = s.cmds := rfl
@[simp] theorem sawOp_resp (s : State) : (sawOp s).resp = s.resp := rfl
@[simp] theorem sawOp_nmax (s : State) : (sawOp s).nmax = s.nmax := rfl

@[simp] theorem pulseOp_phase (s : State) : (pulseOp s).phase = s.phase := rfl
@[simp] theorem pulseOp_phase2 (s : State) : (pulseOp s).phase2 = s.phase2 := rfl
@[simp] theorem pulseOp_ssp (s : State) : (pulseOp s).ssp = s.ssp := rfl
@[simp] theorem pulseOp_dcX (s : State) : (pulseOp s).dcX = s.dcX := rfl
@[simp] theorem pulseOp_dcY (s : State) : (pulseOp s).dcY = s.dcY := rfl
@[simp] theorem pulseOp_sr (s : State) : (pulseOp s).sr = s.sr := rfl
@[simp] theorem pulseOp_initd (s : State) : (pulseOp s).initd = s.initd := rfl
@[simp] theorem pulseOp_fault (s : State) : (pulseOp s).fault = s.fault := rfl
@[simp] theorem pulseOp_finfo (s : State) : (pulseOp s).finfo = s.finfo := rfl
@[simp] theorem pulseOp_rend (s : State) : (pulseOp s).rend = s.rend := rfl
@[simp] theorem pulseOp_smp (s : State) : (pulseOp s).smp = { s.smp with x := pulse s.smp.p0 s.smp.dt s.smp.pw } := rfl
@[simp] theorem pulseOp_out (s : State) : (pulseOp s).out = s.out := rfl
@[simp] theorem pulseOp_cmds (s : State) : (pulseOp s).cmds = s.cmds := rfl
@[simp] theorem pulseOp_resp (s : State) : (pulseOp s).resp = s.resp := rfl
@[simp] theorem pulseOp_nmax (s : State) : (pulseOp s).nmax = s.nmax := rfl

@[simp] theorem supersawOp_phase (s : State) : (supersawOp s).phase = s.phase := rfl
@[simp] theorem supersawOp_phase2 (s : State) : (supersawOp s).phase2 = s.phase2 := rfl
@[simp] theorem supersawOp_ssp (s : State) : (supersawOp s).ssp = voiceAdvance s.sr s.smp.f s.smp.det s.ssp := rfl
@[simp] theorem supersawOp_dcX (s : State) : (supersawOp s).dcX = s.dcX := rfl
@[simp] theorem supersawOp_dcY (s : State) : (supersawOp s).dcY = s.dcY := rfl
@[simp] theorem supersawOp_sr (s : State) : (supersawOp s).sr = s.sr := rfl
@[simp] theorem supersawOp_initd (s : State) : (supersawOp s).initd = s.initd := rfl
@[simp] theorem supersawOp_fault (s : State) : (supersawOp s).fault = s.fault := rfl
@[simp] theorem supersawOp_finfo (s : State) : (supersawOp s).finfo = s.finfo := rfl
@[simp] theorem supersawOp_rend (s : State) : (supersawOp s).rend = s.rend := rfl
@[simp] theorem supersawOp_smp (s : State) : (supersawOp s).smp = { s.smp with x := mean (voiceSaws s.sr s.smp.f s.smp.det s.ssp) } := rfl
@[simp] theorem supersawOp_out (s : State) : (supersawOp s).out = s.out := rfl
@[simp] theorem supersawOp_cmds (s : State) : (supersawOp s).cmds = s.cmds := rfl
@[simp] theorem supersawOp_resp (s : State) : (supersawOp s).resp = s.resp := rfl
@[simp] theorem supersawOp_nmax (s : State) : (supersawOp s).nmax = s.nmax := rfl

@[simp] theorem fm2opOp_phase (P : Params) (s : State) : (fm2opOp P s).phase = s.phase := rfl
@[simp] theorem fm2opOp_phase2 (P : Params) (s : State) : (fm2opOp P s).phase2 = advance s.phase2 (fmInc P s.sr s.smp.f s.smp.tim) := rfl
@[simp] theorem fm2opOp_ssp (P : Params) (s : State) : (fm2opOp P s).ssp = s.ssp := rfl
@[simp] theorem fm2opOp_dcX (P : Params) (s : State) : (fm2opOp P s).dcX = s.dcX := rfl
@[simp] theorem fm2opOp_dcY (P : Params) (s : State) : (fm2opOp P s).dcY = s.dcY := rfl
@[simp] theorem fm2opOp_sr (P : Params) (s : State) : (fm2opOp P s).sr = s.sr := rfl
@[simp] theorem fm2opOp_initd (P : Params) (s : State) : (fm2opOp P s).initd = s.initd := rfl
@[simp] theorem fm2opOp_fault (P : Params) (s : State) : (fm2opOp P s).fault = s.fault := rfl
@[simp] theorem fm2opOp_finfo (P : Params) (s : State) : (fm2opOp P s).finfo = s.finfo := rfl
@[simp] theorem fm2opOp_rend (P : Params) (s : State) : (fm2opOp P s).rend = s.rend := rfl
@[simp] theorem fm2opOp_smp (P : Params) (s : State) : (fm2opOp P s).smp = { s.smp with x := fm2op P s.smp.p0 s.phase2 s.smp.dt s.smp.fmi s.smp.tim } := rfl
@[simp] theorem fm2opOp_out (P : Params) (s : State) : (fm2opOp P s).out = s.out := rfl
@[simp] theorem fm2opOp_cmds (P : Params) (s : State) : (fm2opOp P s).cmds = s.cmds := rfl
@[simp] theorem fm2opOp_resp (P : Params) (s : State) : (fm2opOp P s).resp = s.resp := rfl
@[simp] theorem fm2opOp_nmax (P : Params) (s : State) : (fm2opOp P s).nmax = s.nmax := rfl

@[simp] theorem pdfoldOp_phase (P : Params) (s : State) : (pdfoldOp P s).phase = s.phase := rfl
@[simp] theorem pdfoldOp_phase2 (P : Params) (s : State) : (pdfoldOp P s).phase2 = s.phase2 := rfl
@[simp] theorem pdfoldOp_ssp (P : Params) (s : State) : (pdfoldOp P s).ssp = s.ssp := rfl
@[simp] theorem pdfoldOp_dcX (P : Params) (s : State) : (pdfoldOp P s).dcX = s.dcX := rfl
@[simp] theorem pdfoldOp_dcY (P : Params) (s : State) : (pdfoldOp P s).dcY = s.dcY := rfl
@[simp] theorem pdfoldOp_sr (P : Params) (s : State) : (pdfoldOp P s).sr = s.sr := rfl
@[simp] theorem pdfoldOp_initd (P : Params) (s : State) : (pdfoldOp P s).initd = s.initd := rfl
@[simp] theorem pdfoldOp_fault (P : Params) (s : State) : (pdfoldOp P s).fault = s.fault := rfl
@[simp] theorem pdfoldOp_finfo (P : Params) (s : State) : (pdfoldOp P s).finfo = s.finfo := rfl
@[simp] theorem pdfoldOp_rend (P : Params) (s : State) : (pdfoldOp P s).rend = s.rend := rfl
@[simp] theorem pdfoldOp_smp (P : Params) (s : State) : (pdfoldOp P s).smp = { s.smp with x := pdfold P s.smp.p0 s.smp.fmi s.smp.tim } := rfl
@[simp] theorem pdfoldOp_out (P : Params) (s : State) : (pdfoldOp P s).out = s.out := rfl
@[simp] theorem pdfoldOp_cmds (P : Params) (s : State) : (pdfoldOp P s).cmds = s.cmds := rfl
@[simp] theorem pdfoldOp_resp (P : Params) (s : State) : (pdfoldOp P s).resp = s.resp := rfl
@[simp] theorem pdfoldOp_nmax (P : Params) (s : State) : (pdfoldOp P s).nmax = s.nmax := rfl

end Sys2Proof.Machine
end

