-- ==== Sys2Proof/Laws/Ops.lean ====
section
/-! SUPPORT. What each shared operation can do, said once: the faulted-core guard, the silence of an uninitialised core, the
resolver and the checks of a RENDER, the generators' writes, the sample step and the sample loop. -/

namespace Sys2Proof.Machine

/-! ## The faulted-core guard (43_engine.md R189) -/

theorem State.unlessFaulted_ok {s : State} (h : s.fault = .noFault) (ka : Option Bool) (body : State) :
    s.unlessFaulted ka body = body := by simp [State.unlessFaulted, h]

theorem State.unlessFaulted_faulted {s : State} (h : s.fault ≠ .noFault) (ka : Option Bool) (body : State) :
    s.unlessFaulted ka body = s.respondFaulted ka := by simp [State.unlessFaulted, h]

/-! ## Silence (43_engine.md R183) -/

/-- Silence writes the output block and nothing else. -/
theorem State.writeSilence_eq (s : State) (n : Nat) : s.writeSilence n = { s with out := (s.writeSilence n).out } := by
  induction n with
  | zero => rfl
  | succ n ih =>
    show (s.writeSilence n).memWrite n .zero = _
    rw [ih]
    rfl

theorem State.writeSilence_read (s : State) (n k : Nat) :
    (s.writeSilence n).out.read k = if k < n then some F64.zero else s.out.read k := by
  induction n with
  | zero => simp [State.writeSilence]
  | succ n ih =>
    show (((s.writeSilence n).memWrite n .zero).out).read k = _
    rw [State.memWrite_out, Memory.read_write, ih]
    by_cases h1 : k = n
    · simp [h1]
    · by_cases h2 : k < n
      · rw [if_neg h1, if_pos h2, if_pos (by omega)]
      · rw [if_neg h1, if_neg h2, if_neg (by omega)]

theorem State.writeSilence_wf (s : State) (n : Nat) (h : s.out.wf = true) : (s.writeSilence n).out.wf = true := by
  induction n with
  | zero => exact h
  | succ n ih => exact Memory.write_wf n .zero ih

/-! ## The resolver and the checks of a RENDER -/

theorem Param.mem_all (p : Param) : p ∈ Param.all := by cases p <;> simp [Param.all]

/-- A value resolves unless its array is used and too short. -/
theorem resolve_eq_none {src : Sources} {p : Param} {n : Nat} :
    resolve src p n = none ↔ 1 < arrayLen src p ∧ arrayLen src p ≤ n := by
  unfold resolve memRead arrayLen
  split <;> simp_all

/-- The length check passes when every array has length 0, 1 or N (43_engine.md R182 (b)). -/
theorem firstBadArray_eq_none {n : Nat} {src : Sources} :
    firstBadArray n src = none ↔ ∀ p, arrayLen src p ≤ 1 ∨ arrayLen src p = n := by
  unfold firstBadArray
  rw [List.find?_eq_none]
  constructor
  · intro h p
    have := h p (Param.mem_all p)
    simp only [badArray, decide_eq_true_eq] at this
    omega
  · intro h p _
    have := h p
    simp only [badArray, decide_eq_true_eq]
    omega

/-- The value check of one sample passes when nothing that resolves is non-finite. -/
theorem badValueIn_eq_none {src : Sources} {n : Nat} :
    badValueIn src n = none ↔ ∀ p v, resolve src p n = some v → v.isFinite = true := by
  unfold badValueIn
  rw [Option.map_eq_none_iff, List.find?_eq_none]
  constructor
  · intro h p v hv
    have := h p (Param.mem_all p)
    simpa [badValue, hv] using this
  · intro h p _
    unfold badValue
    cases hv : resolve src p n with
    | none => simp
    | some v => simp [h p v hv]

/-- The value check of a block passes when every value it resolves is finite (43_engine.md R184). -/
theorem firstNonFinite_eq_none {src : Sources} {n : Nat} :
    firstNonFinite src n = none ↔ ∀ k < n, ∀ p v, resolve src p k = some v → v.isFinite = true := by
  induction n with
  | zero => simp [firstNonFinite]
  | succ n ih =>
    unfold firstNonFinite
    rw [Option.or_eq_none_iff, ih, badValueIn_eq_none]
    constructor
    · rintro ⟨h1, h2⟩ k hk
      rcases Nat.lt_succ_iff_lt_or_eq.mp hk with h | rfl
      · exact h1 k h
      · exact h2
    · exact fun h => ⟨fun k hk => h k (Nat.lt_succ_of_lt hk), h n (Nat.lt_succ_self n)⟩

/-- A value resolves to a finite one exactly when it resolves and is finite. -/
theorem resolveFinite_eq_some {src : Sources} {p : Param} {n : Nat} {v : F64} :
    resolveFinite src p n = some v ↔ resolve src p n = some v ∧ v.isFinite = true := by
  unfold resolveFinite
  cases h : resolve src p n with
  | none => simp
  | some w =>
    by_cases hf : w.isFinite = true
    · simp only [hf, if_true, Option.some.injEq]
      constructor
      · rintro rfl; exact ⟨rfl, hf⟩
      · exact fun h => h.1
    · simp only [hf, Bool.false_eq_true, if_false, Option.some.injEq, reduceCtorEq, false_iff, not_and]
      rintro rfl; exact hf

/-- All seven parameters resolve exactly when each does. -/
theorem resolveAll_eq_some {src : Sources} {n : Nat} {r : Resolved} :
    resolveAll src n = some r ↔
      resolveFinite src .mode n = some r.mode ∧ resolveFinite src .freq n = some r.freq ∧
      resolveFinite src .gain n = some r.gain ∧ resolveFinite src .pulseWidth n = some r.pulseWidth ∧
      resolveFinite src .detune n = some r.detune ∧ resolveFinite src .fmIndex n = some r.fmIndex ∧
      resolveFinite src .timbre n = some r.timbre := by
  unfold resolveAll
  constructor
  · intro h
    split at h
    · simp only [Option.some.injEq] at h
      subst h
      simp_all
    · simp at h
  · rintro ⟨h0, h1, h2, h3, h4, h5, h6⟩
    rw [h0, h1, h2, h3, h4, h5, h6]

/-- In a block that passed its checks every parameter of every sample resolves to a finite value. -/
theorem exists_resolveFinite {n k : Nat} {src : Sources} (hlen : firstBadArray n src = none)
    (hfin : firstNonFinite src n = none) (hk : k < n) (p : Param) : ∃ v, resolveFinite src p k = some v := by
  have hl := firstBadArray_eq_none.mp hlen p
  cases hv : resolve src p k with
  | none =>
    have := resolve_eq_none.mp hv
    omega
  | some v => exact ⟨v, resolveFinite_eq_some.mpr ⟨hv, firstNonFinite_eq_none.mp hfin k hk p v hv⟩⟩

theorem exists_resolveAll {n k : Nat} {src : Sources} (hlen : firstBadArray n src = none)
    (hfin : firstNonFinite src n = none) (hk : k < n) : ∃ r, resolveAll src k = some r := by
  obtain ⟨m, h0⟩ := exists_resolveFinite hlen hfin hk .mode
  obtain ⟨f, h1⟩ := exists_resolveFinite hlen hfin hk .freq
  obtain ⟨g, h2⟩ := exists_resolveFinite hlen hfin hk .gain
  obtain ⟨pw, h3⟩ := exists_resolveFinite hlen hfin hk .pulseWidth
  obtain ⟨det, h4⟩ := exists_resolveFinite hlen hfin hk .detune
  obtain ⟨fm, h5⟩ := exists_resolveFinite hlen hfin hk .fmIndex
  obtain ⟨tim, h6⟩ := exists_resolveFinite hlen hfin hk .timbre
  exact ⟨⟨m, f, g, pw, det, fm, tim⟩, resolveAll_eq_some.mpr ⟨h0, h1, h2, h3, h4, h5, h6⟩⟩

/-! ## The mode code (30_encoding.md R78) -/

theorem modeCode_toNat (v : F64) : (modeCode v).toNat = (Min.min (Max.max v.floorInt 0) 4).toNat := by
  unfold modeCode
  generalize hz : Min.min (Max.max v.floorInt 0) 4 = z
  have h0 : 0 ≤ z := by omega
  have h4 : z ≤ 4 := by omega
  rw [BitVec.toNat_ofInt]
  omega

theorem modeCode_le (v : F64) : (modeCode v).toNat ≤ 4 := by
  rw [modeCode_toNat]; omega

/-! ## The generators -/

/-- A generator writes its result, the supersaw phases in mode 2 and phase2 in mode 3, and nothing else (10_state.md R26). -/
theorem generate_frame (P : Params) (m : ModeBits) (s : State) :
    ∃ x, generate P m s =
      { s with
        smp := { s.smp with x := x },
        ssp := if m = 0b010#3 then voiceAdvance s.sr s.smp.f s.smp.det s.ssp else s.ssp,
        phase2 := if m = 0b011#3 then advance s.phase2 (fmInc P s.sr s.smp.f s.smp.tim) else s.phase2 } := by
  unfold generate
  split
  · rename_i h; subst h; exact ⟨_, rfl⟩
  split
  · rename_i h; subst h; exact ⟨_, rfl⟩
  split
  · rename_i h; subst h; exact ⟨_, rfl⟩
  split
  · rename_i h; subst h; exact ⟨_, rfl⟩
  split
  · rename_i h; subst h; exact ⟨_, rfl⟩
  · exact ⟨s.smp.x, rfl⟩

/-! ## The sample step (43_engine.md R186) -/

/-- What a sample step does when it runs. -/
theorem sampleStep_eq_some {P : Params} {pr : Progress} {s t : State} :
    sampleStep P pr s = some t ↔
      ∃ r, resolveAll pr.src pr.index = some r ∧
        t = nextSample (closeSample (generate P (modeCode r.mode) (openSample P s r)) pr.index) pr := by
  unfold sampleStep
  cases h : resolveAll pr.src pr.index with
  | none => simp
  | some r => simp [eq_comm]

/-- The registers and frames a sample step leaves alone. -/
structure SampleFrame (pr : Progress) (s t : State) : Prop where
  sr : t.sr = s.sr
  initd : t.initd = s.initd
  fault : t.fault = s.fault
  finfo : t.finfo = s.finfo
  cmds : t.cmds = s.cmds
  resp : t.resp = s.resp
  nmax : t.nmax = s.nmax
  rend : t.rend = some { pr with index := pr.index + 1 }
  smp : t.smp = .idle
  out : ∃ v, t.out = s.out.write pr.index v

theorem sampleStep_frame {P : Params} {pr : Progress} {s t : State} (h : sampleStep P pr s = some t) :
    SampleFrame pr s t := by
  obtain ⟨r, -, rfl⟩ := sampleStep_eq_some.mp h
  obtain ⟨x, hg⟩ := generate_frame P (modeCode r.mode) (openSample P s r)
  rw [hg]
  exact ⟨rfl, rfl, rfl, rfl, rfl, rfl, rfl, rfl, rfl, _, rfl⟩

/-! ## The sample loop (43_engine.md R185) -/

theorem renderLoop_zero (P : Params) (pr : Progress) (s : State) : renderLoop P 0 pr s = .next (finishRender s) := rfl

theorem renderLoop_succ {P : Params} {k : Nat} {pr : Progress} {s t : State} (h : sampleStep P pr s = some t) :
    renderLoop P (k + 1) pr s = renderLoop P k { pr with index := pr.index + 1 } t := by
  simp [renderLoop, h]

/-- The sample loop never refuses. -/
theorem renderLoop_ne_refused (P : Params) (k : Nat) (pr : Progress) (s : State) (e : Refusal) :
    renderLoop P k pr s ≠ .refused e := by
  induction k generalizing pr s with
  | zero => simp [renderLoop]
  | succ k ih =>
    unfold renderLoop
    split
    · simp
    · exact ih _ _

/-- The state a sample loop ends in, for a block whose remaining samples all resolve. -/
theorem renderLoop_completes (P : Params) {k : Nat} {pr : Progress} (s : State)
    (h : ∀ j < k, ∃ r, resolveAll pr.src (pr.index + j) = some r) : ∃ t, renderLoop P k pr s = .next t := by
  induction k generalizing pr s with
  | zero => exact ⟨_, rfl⟩
  | succ k ih =>
    obtain ⟨r, hr⟩ := h 0 (Nat.succ_pos k)
    have hs : sampleStep P pr s = some _ := sampleStep_eq_some.mpr ⟨r, hr, rfl⟩
    rw [renderLoop_succ hs]
    refine ih _ fun j hj => ?_
    obtain ⟨r', hr'⟩ := h (j + 1) (by omega)
    exact ⟨r', by rw [← hr']; show resolveAll pr.src (pr.index + 1 + j) = _; congr 1; omega⟩

/-- What a sample loop leaves alone when it ends. -/
theorem renderLoop_frame {P : Params} {k : Nat} {pr : Progress} {s t : State} (h : renderLoop P k pr s = .next t) :
    t.sr = s.sr ∧ t.initd = s.initd ∧ t.fault = s.fault ∧ t.finfo = s.finfo ∧ t.cmds = s.cmds ∧ t.nmax = s.nmax ∧
      t.rend = none ∧ t.smp = .idle ∧ t.resp = some ⟨.ok, some true⟩ := by
  induction k generalizing pr s with
  | zero =>
    simp only [renderLoop_zero, Host.Outcome.next.injEq] at h
    subst h
    exact ⟨rfl, rfl, rfl, rfl, rfl, rfl, rfl, rfl, rfl⟩
  | succ k ih =>
    unfold renderLoop at h
    split at h
    · simp at h
    · rename_i u hu
      have f := sampleStep_frame hu
      obtain ⟨h1, h2, h3, h4, h5, h6, h7⟩ := ih h
      exact ⟨h1.trans f.sr, h2.trans f.initd, h3.trans f.fault, h4.trans f.finfo, h5.trans f.cmds, h6.trans f.nmax, h7⟩

end Sys2Proof.Machine
end

