-- ==== Sys2Proof/Laws/PerInstr.lean ====
section
/-! SUPPORT. One family of statements about an instruction as syntax, a lemma per constructor: its encoding matches the row of
spec/opcode_table.json it stands for. -/

namespace Sys2Proof.Laws.TableRow

/-- The encoded instruction's bits under its row's mask are the row's match value. -/
def Statement (i : Instr) : Prop := (encode i).number &&& (opcodeRow i).mask = (opcodeRow i).value

theorem init (sampleRate : F64) (off : Seven F64) : Statement (.init sampleRate off) := by
  show (0x00000001#32).toNat &&& 0xFFFFFFFF = 1
  decide

theorem render (n : Nat) (src : Sources) : Statement (.render n src) := by
  show (0x00000002#32).toNat &&& 0xFFFFFFFF = 2
  decide

theorem reset : Statement .reset := by
  show (0x00000010#32).toNat &&& 0xFFFFFFFF = 16
  decide

theorem unrecognised (w : CmdWord) : Statement (.unrecognised w) := by
  show w.toNat &&& 0 = 0
  simp

theorem saw : Statement .saw := by
  show (0b000#3).toNat &&& 7 = 0
  decide

theorem pulse : Statement .pulse := by
  show (0b001#3).toNat &&& 7 = 1
  decide

theorem supersaw : Statement .supersaw := by
  show (0b010#3).toNat &&& 7 = 2
  decide

theorem fm2op : Statement .fm2op := by
  show (0b011#3).toNat &&& 7 = 3
  decide

theorem pdfold : Statement .pdfold := by
  show (0b100#3).toNat &&& 7 = 4
  decide

end Sys2Proof.Laws.TableRow
end

