-- ==== Sys2Proof/Laws/Run.lean ====
section
/-! SUPPORT. The host's run of the machine, one step at a time. -/

namespace Sys2Proof.Machine

theorem core_run_zero (s : State) : Host.Core.run Sys2Proof.core 0 s = Host.Outcome.next s := rfl

theorem core_run_succ {s t : State} (k : Nat) (h : step s = .next t) :
    Host.Core.run Sys2Proof.core (k + 1) s = Host.Core.run Sys2Proof.core k t := by
  have hs : Sys2Proof.core.step s = Host.Outcome.next t := h
  have hr := Host.Core.run.eq_2 Sys2Proof.core s k
  rw [hr, hs]

end Sys2Proof.Machine
end

