-- ==== Sys2Proof/Laws/Step.lean ====
section
/-! SUPPORT. What one step can do, said once, and how the sample step of `step` agrees with the one RENDER runs. -/

namespace Sys2Proof.Machine

/-! ## The generator a sample step selects -/

/-- A mode code always selects a generator, and `exec` of it is what RENDER's own sample step runs. -/
theorem exec_of_modeCode (v : F64) :
    ∃ i, decodeMode (modeCode v) = .ok i ∧ ∀ s, exec i s = .next (generate Config.params (modeCode v) s) := by
  have hle := modeCode_le v
  generalize modeCode v = m at hle ⊢
  have hm : m = 0b000#3 ∨ m = 0b001#3 ∨ m = 0b010#3 ∨ m = 0b011#3 ∨ m = 0b100#3 := by
    have h : m.toNat = 0 ∨ m.toNat = 1 ∨ m.toNat = 2 ∨ m.toNat = 3 ∨ m.toNat = 4 := by omega
    rcases h with h | h | h | h | h <;>
      first
        | exact .inl (BitVec.eq_of_toNat_eq h)
        | exact .inr (.inl (BitVec.eq_of_toNat_eq h))
        | exact .inr (.inr (.inl (BitVec.eq_of_toNat_eq h)))
        | exact .inr (.inr (.inr (.inl (BitVec.eq_of_toNat_eq h))))
        | exact .inr (.inr (.inr (.inr (BitVec.eq_of_toNat_eq h))))
  rcases hm with rfl | rfl | rfl | rfl | rfl
  · exact ⟨.saw, rfl, fun _ => rfl⟩
  · exact ⟨.pulse, rfl, fun _ => rfl⟩
  · exact ⟨.supersaw, rfl, fun _ => rfl⟩
  · exact ⟨.fm2op, rfl, fun _ => rfl⟩
  · exact ⟨.pdfold, rfl, fun _ => rfl⟩

/-- The sample step of `step` is RENDER's, ending the RENDER with its last sample. -/
theorem stepSample_eq (s : State) (pr : Progress) :
    stepSample s pr =
      match sampleStep Config.params pr s with
      | none => .fault .renderOperands
      | some t => .next (if pr.index + 1 < pr.len then t else finishRender t) := by
  unfold stepSample sampleStep
  cases h : resolveAll pr.src pr.index with
  | none => rfl
  | some r =>
    obtain ⟨i, hi, he⟩ := exec_of_modeCode r.mode
    simp only [hi, he]
    rfl

/-! ## What a step can do -/

/-- Every way a step answers a next state. -/
theorem step_cases {s t : State} (h : step s = .next t) :
    (∃ pr u, s.rend = some pr ∧ sampleStep Config.params pr s = some u ∧
        t = if pr.index + 1 < pr.len then u else finishRender u) ∨
      (s.rend = none ∧ s.cmds = [] ∧ t = s) ∨
      (∃ c rest i, s.rend = none ∧ s.cmds = c :: rest ∧ decodeCommand c = .ok i ∧
        exec i { s with cmds := rest } = .next t) := by
  unfold step at h
  split at h
  · rename_i pr hpr
    rw [stepSample_eq] at h
    split at h
    · simp at h
    · rename_i u hu
      simp only [Host.Outcome.next.injEq] at h
      exact .inl ⟨pr, u, hpr, hu, h.symm⟩
  · rename_i hr
    unfold stepCommand at h
    split at h
    · rename_i hc
      simp only [Host.Outcome.next.injEq] at h
      exact .inr (.inl ⟨hr, hc, h.symm⟩)
    · rename_i c rest hc
      split at h
      · simp at h
      · rename_i i hi
        exact .inr (.inr ⟨c, rest, i, hr, hc, hi, h⟩)

/-- A command word decodes to one of the four commands. -/
theorem decodeCommand_cases {c : Command} {i : Instr} (h : decodeCommand c = .ok i) :
    (∃ r off, i = .init r off) ∨ (∃ n src, i = .render n src) ∨ i = .reset ∨ i = .unrecognised c.word := by
  unfold decodeCommand at h
  split at h
  all_goals try split at h
  all_goals first
    | (simp only [Except.ok.injEq] at h; subst h; simp)
    | simp at h

/-! ## What a command can do -/

theorem exec_init (r : F64) (off : Seven F64) (s : State) :
    exec (.init r off) s = .next (s.unlessFaulted none (initBody s r off)) := rfl

theorem exec_reset (s : State) : exec .reset s = .next (s.unlessFaulted none (resetBody s)) := rfl

theorem exec_unrecognised (w : CmdWord) (s : State) :
    exec (.unrecognised w) s = .next (s.unlessFaulted none (s.respond .ignored none)) := rfl

theorem exec_render (n : Nat) (src : Sources) (s : State) : exec (.render n src) s = renderWith Config.params n src s := rfl

/-- Every way RENDER answers a next state (43_engine.md R181). -/
theorem renderWith_cases {P : Params} {n : Nat} {src : Sources} {s t : State} (h : renderWith P n src s = .next t) :
    (s.fault ≠ .noFault ∧ t = s.respondFaulted (some false)) ∨
      (s.fault = .noFault ∧ s.nmax < n ∧ t = s.raiseFault .blockLength 7 0) ∨
      (s.fault = .noFault ∧ n ≤ s.nmax ∧ s.initd = false ∧
        t = (s.writeSilence n).respond .silentNotInit (some true)) ∨
      (s.fault = .noFault ∧ n ≤ s.nmax ∧ s.initd = true ∧ ∃ p, firstBadArray n src = some p ∧
        t = s.raiseFault .arrayLength p.index 0) ∨
      (s.fault = .noFault ∧ n ≤ s.nmax ∧ s.initd = true ∧ firstBadArray n src = none ∧
        ∃ p k, firstNonFinite src n = some (p, k) ∧ t = s.raiseFault .nonFinite p.index k) ∨
      (s.fault = .noFault ∧ n ≤ s.nmax ∧ s.initd = true ∧ firstBadArray n src = none ∧ firstNonFinite src n = none ∧
        renderLoop P n { len := n, src := src, index := 0 } (beginRender s n src) = .next t) := by
  unfold renderWith at h
  split at h
  · rename_i hf
    simp only [Host.Outcome.next.injEq] at h
    exact .inl ⟨hf, h.symm⟩
  rename_i hf
  simp only [ne_eq, not_not] at hf
  split at h
  · rename_i hn
    simp only [Host.Outcome.next.injEq] at h
    exact .inr (.inl ⟨hf, hn, h.symm⟩)
  rename_i hn
  have hn := Nat.le_of_not_lt hn
  split at h
  · rename_i hi
    simp only [Host.Outcome.next.injEq] at h
    exact .inr (.inr (.inl ⟨hf, hn, hi, h.symm⟩))
  rename_i hi
  have hi : s.initd = true := by simpa using hi
  split at h
  · rename_i p hp
    simp only [Host.Outcome.next.injEq] at h
    exact .inr (.inr (.inr (.inl ⟨hf, hn, hi, p, hp, h.symm⟩)))
  rename_i hp
  split at h
  · rename_i p k hk
    simp only [Host.Outcome.next.injEq] at h
    exact .inr (.inr (.inr (.inr (.inl ⟨hf, hn, hi, hp, p, k, hk, h.symm⟩))))
  · rename_i hk
    exact .inr (.inr (.inr (.inr (.inr ⟨hf, hn, hi, hp, hk, h⟩))))

/-- A RENDER whose checks pass is its sample loop. -/
theorem renderWith_ok {P : Params} {n : Nat} {src : Sources} {s : State} (hf : s.fault = .noFault) (hn : n ≤ s.nmax)
    (hi : s.initd = true) (hlen : firstBadArray n src = none) (hfin : firstNonFinite src n = none) :
    renderWith P n src s = renderLoop P n { len := n, src := src, index := 0 } (beginRender s n src) := by
  unfold renderWith
  rw [if_neg (by simp [hf]), if_neg (by omega), if_neg (by simp [hi]), hlen, hfin]

end Sys2Proof.Machine
end

