-- ==== Sys2Proof/Machine/Assembler.lean ====
section
/-! DEFINITION. The textual syntax of a command sequence, one command per line, with the pseudo-instructions NOP and RENDERK
(30_encoding.md R83, R84; D27; log 21). A line is a list of characters. -/

namespace Sys2Proof.Asm

/-- A token: a run of letters, digits, signs and points, or one of the marks of R83. -/
inductive Token where
  | word (cs : List Char)
  | comma
  | colon
  | equals
  | opening
  | closing
deriving DecidableEq, Repr

/-- Why a line is no command. -/
inductive AsmError where
  | badCharacter
  | unknownMnemonic
  | badOperands
deriving DecidableEq, Repr

/-- Characters a word is made of. -/
def isWordChar (c : Char) : Bool :=
  ('a' ≤ c && c ≤ 'z') || ('A' ≤ c && c ≤ 'Z') || ('0' ≤ c && c ≤ '9') || c == '.' || c == '+' || c == '-'

/-- The mark a character stands for. -/
def markOf (c : Char) : Option Token :=
  if c = ',' then some .comma
  else if c = ':' then some .colon
  else if c = '=' then some .equals
  else if c = '[' then some .opening
  else if c = ']' then some .closing
  else none

/-- The word collected so far (in reverse), put before the tokens after it. -/
def flush (acc : List Char) (rest : List Token) : List Token :=
  if acc.isEmpty then rest else .word acc.reverse :: rest

/-- The tokens of a line; blanks separate words. -/
def tokens : List Char → List Char → Option (List Token)
  | [], acc => some (flush acc [])
  | c :: cs, acc =>
    if isWordChar c then tokens cs (c :: acc)
    else if c = ' ' ∨ c = '\t' then (tokens cs []).map (flush acc)
    else
      match markOf c with
      | some t => (tokens cs []).map fun rest => flush acc (t :: rest)
      | none => none

/-- A decimal digit's value. -/
def digit (c : Char) : Option Nat := if '0' ≤ c ∧ c ≤ '9' then some (c.toNat - '0'.toNat) else none

/-- A decimal natural, at least one digit. -/
def natural : List Char → Option Nat
  | [] => none
  | cs => cs.foldl (fun acc c => acc.bind fun n => (digit c).map fun d => 10 * n + d) (some 0)

/-- A hexadecimal digit's value. -/
def hexDigit (c : Char) : Option Nat :=
  if '0' ≤ c ∧ c ≤ '9' then some (c.toNat - '0'.toNat)
  else if 'a' ≤ c ∧ c ≤ 'f' then some (c.toNat - 'a'.toNat + 10)
  else if 'A' ≤ c ∧ c ≤ 'F' then some (c.toNat - 'A'.toNat + 10)
  else none

/-- `<hex32>`: 0x and one to eight hexadecimal digits of either case (log 21). -/
def hex32 : List Char → Option CmdWord
  | '0' :: 'x' :: cs =>
    if cs.isEmpty ∨ 8 < cs.length then none
    else (cs.foldl (fun acc c => acc.bind fun n => (hexDigit c).map fun d => 16 * n + d) (some 0)).map (BitVec.ofNat 32)
  | _ => none

/-- The binary64 number nearest to m·10^e, with its sign (00_scope.md R8). -/
def decimal (neg : Bool) (m : Nat) (e : Int) : F64 :=
  .pack neg (F64.roundMag (m * 10 ^ e.toNat * F64.unitScale) (10 ^ (-e).toNat))

/-- A sign and what follows it. -/
def signed : List Char → Bool × List Char
  | '-' :: cs => (true, cs)
  | '+' :: cs => (false, cs)
  | cs => (false, cs)

/-- A signed decimal exponent. -/
def exponent (cs : List Char) : Option Int :=
  (natural (signed cs).2).map fun n => if (signed cs).1 then -(n : Int) else n

/-- The part of a literal after its sign: digits, an optional fraction, an optional exponent. R83 gives "decimal binary64
literals" no form: that `.5` is refused, and that `5.` and `1e` read as 5 and 1, is the model's choice (log 21). -/
def unsignedLiteral (neg : Bool) (cs : List Char) : Option F64 :=
  let mantissa := cs.takeWhile fun c => c != 'e' && c != 'E'
  let expo := (cs.dropWhile fun c => c != 'e' && c != 'E').drop 1
  let whole := mantissa.takeWhile (· != '.')
  let frac := (mantissa.dropWhile (· != '.')).drop 1
  if whole.isEmpty then none
  else
    match natural (whole ++ frac), (if expo.isEmpty then some 0 else exponent expo) with
    | some m, some e => some (decimal neg m (e - frac.length))
    | _, _ => none

/-- A number: a decimal binary64 literal (R83), or one of the names 95_test_vectors.md V13 uses for values a literal cannot
write (log 21). -/
def number (cs : List Char) : Option F64 :=
  if cs = ['N', 'a', 'N'] then some ⟨0x7FF8000000000000#64⟩
  else if (signed cs).2 = ['i', 'n', 'f'] then some (.pack (signed cs).1 F64.infMag)
  else unsignedLiteral (signed cs).1 (signed cs).2

/-- The values of a bracketed list, from after its opening mark; `first` tells whether none has been read. -/
def listItems : Bool → List Token → Option (List F64 × List Token)
  | first, .closing :: rest => if first then some ([], rest) else none
  | _, .word w :: .closing :: rest => (number w).map fun v => ([v], rest)
  | _, .word w :: .comma :: rest =>
    match number w, listItems false rest with
    | some v, some (vs, rest') => some (v :: vs, rest')
    | _, _ => none
  | _, _ => none

/-- `<src>`: `<kval>` or `<kval> : [<v0>, ...]` (R83). -/
def source : List Token → Option (Source × List Token)
  | .word w :: .colon :: .opening :: rest =>
    match number w, listItems true rest with
    | some k, some (vs, rest') => some ({ kval := k, arr := vs }, rest')
    | _, _ => none
  | .word w :: rest => (number w).map fun k => (.const k, rest)
  | _ => none

/-- `, <name>=<src>` (R83). -/
def namedSource (name : List Char) : List Token → Option (Source × List Token)
  | .comma :: .word w :: .equals :: rest => if w = name then source rest else none
  | _ => none

/-- The seven named sources, all of them and in the order of 00_scope.md R11, up to the end of the line. -/
def sources (ts : List Token) : Option Sources := do
  let (m, ts) ← namedSource "mode".toList ts
  let (f, ts) ← namedSource "freq".toList ts
  let (g, ts) ← namedSource "gain".toList ts
  let (pw, ts) ← namedSource "pw".toList ts
  let (det, ts) ← namedSource "detune".toList ts
  let (fm, ts) ← namedSource "fm".toList ts
  let (tim, ts) ← namedSource "timbre".toList ts
  if ts.isEmpty then
    some { mode := m, freq := f, gain := g, pulseWidth := pw, detune := det, fmIndex := fm, timbre := tim }
  else none

/-- The operands of INIT. -/
def initLine : List Token → Option Command
  | .word w :: .comma :: .opening :: rest =>
    match number w, listItems true rest with
    | some sr, some ([a, b, c, d, e, f, g], []) =>
      some { word := 0x00000001#32, ops := .init sr ⟨a, b, c, d, e, f, g⟩ }
    | _, _ => none
  | _ => none

/-- The operands of RENDER. -/
def renderLine : List Token → Option Command
  | .word w :: rest =>
    match natural w, sources rest with
    | some n, some src => some { word := 0x00000002#32, ops := .render n src }
    | _, _ => none
  | _ => none

/-- The operands of RENDERK (R84). -/
def renderKLine : List Token → Option Command
  | .word w :: .comma :: rest =>
    match natural w, listItems false (rest ++ [.closing]) with
    | some n, some ([m, f, g, pw, det, fm, tim], []) => some (.renderK n m f g pw det fm tim)
    | _, _ => none
  | _ => none

/-- The operand of `.word`, with the empty operand record (R83). -/
def wordLine : List Token → Option Command
  | [.word w] => (hex32 w).map fun c => { word := c, ops := .empty }
  | _ => none

/-- A mnemonic without operands. -/
def bareLine (c : Command) : List Token → Option Command
  | [] => some c
  | _ => none

/-- The parser of a mnemonic's operands. -/
def lineOf (mnemonic : List Char) : Option (List Token → Option Command) :=
  if mnemonic = "INIT".toList then some initLine
  else if mnemonic = "RENDER".toList then some renderLine
  else if mnemonic = "RESET".toList then some (bareLine { word := 0x00000010#32, ops := .empty })
  else if mnemonic = ".word".toList then some wordLine
  else if mnemonic = "NOP".toList then some (bareLine .nop)
  else if mnemonic = "RENDERK".toList then some renderKLine
  else none

/-- The command a line of R83 or R84 stands for. -/
def assemble (line : List Char) : Except AsmError Command :=
  match tokens line [] with
  | none => .error .badCharacter
  | some (.word mnemonic :: rest) =>
    match lineOf mnemonic with
    | none => .error .unknownMnemonic
    | some parse =>
      match parse rest with
      | some c => .ok c
      | none => .error .badOperands
  | some _ => .error .unknownMnemonic

end Sys2Proof.Asm
end

