-- ==== Sys2Proof/Machine/ReferenceSine.lean ====
section
/-! DEFINITION. The reference value of SIN, "the correctly rounded sine of the binary64 argument" (00_scope.md R6; D2), as a
function that can be evaluated. The machine does not use it: SIN is open (Config.sin). It is one legal configuration, the one
the test vectors of modes 3 and 4 are stated for (D36). Its error bound is not proved (UNVERIFIED, log 4).

The sine is computed in fixed point: π by Machin's formula, the argument reduced by whole multiples of π, the Taylor series
summed, and the result rounded once. -/

namespace Sys2Proof.RefSine

/-- The alternating sum of `power / d`, `power` falling by `sq` a term and d rising by 2: the arctangent of an inverse
integer in fixed point. -/
def arctanSum : Nat → Nat → Nat → Nat → Int
  | 0, _, _, _ => 0
  | fuel + 1, power, sq, d =>
    if power = 0 then 0 else (power / d : Int) - arctanSum fuel (power / sq) sq (d + 2)

/-- arctan(1/n) times 2^prec. -/
def arctanInv (prec n : Nat) : Int := arctanSum (prec + 8) (2 ^ prec / n) (n * n) 1

/-- π times 2^prec, from 16·arctan(1/5) - 4·arctan(1/239) with 64 guard bits. -/
def piFixed (prec : Nat) : Int :=
  (16 * arctanInv (prec + 64) 5 - 4 * arctanInv (prec + 64) 239) / 2 ^ 64

/-- The Taylor series of the sine from the term `term` of degree d on, in fixed point, `sq` being the squared argument. -/
def sineSum : Nat → Nat → Nat → Nat → Nat → Int
  | 0, _, _, _, _ => 0
  | fuel + 1, prec, term, sq, d =>
    if term = 0 then 0
    else (term : Int) - sineSum fuel prec (term * sq / 2 ^ (2 * prec) / ((d + 1) * (d + 2))) sq (d + 2)

/-- The working precision for a magnitude of u units: 320 bits below the point, more where the argument is large and its
reduction loses as many. -/
def workBits (u : Nat) : Nat := 320 + (Nat.log2 u - 1074)

/-- The sine of u units, times 2^(workBits u). -/
def sineFixed (u : Nat) : Int :=
  let prec := workBits u
  let x : Int := (u * 2 ^ prec / F64.unitScale : Nat)
  let p := piFixed prec
  let n := x / p
  let r := (x - n * p).toNat
  let s := sineSum (prec + 8) prec r (r * r) 1
  if n % 2 = 0 then s else -s

/-- Arguments below 2^-27, whose sine rounds to themselves. -/
def isTiny (x : F64) : Bool := decide (F64.magUnits x.mag < 2 ^ 1047)

/-- The reference SIN. -/
def sin (x : F64) : F64 :=
  if !x.isFinite then ⟨0x7FF8000000000000#64⟩
  else if isTiny x then x
  else
    let s := sineFixed (F64.magUnits x.mag)
    F64.pack (x.sgn != decide (s < 0)) (F64.roundMag (s.natAbs * F64.unitScale) (2 ^ workBits (F64.magUnits x.mag)))

/-- The reference configuration: the reference SIN, and 1 Hz as FREQ_FLOOR, which no test vector uses. -/
def params : Params := { sin := sin, freqFloor := fun _ => F64.one }

end Sys2Proof.RefSine
end

