-- ==== Sys2Proof/Tests/Slice0.lean ====
section
/-! SUPPORT. The model's own tests, their expected values from 95_test_vectors.md (V1 to V13, P1, P2, S1 to S11) or, for an
encoding, from 30_encoding.md; then, for every obligation with hypotheses, a witness that meets them. -/

namespace Sys2Proof.Tests

open Sys2Proof Sys2Proof.Machine

-- Each theorem in turn, not all at once: a thread for each kernel evaluation takes more memory than the check allows.
set_option Elab.async false

/-! ## Helpers -/

/-- m / 10^e, the nearest binary64 number. -/
def dec (m e : Nat) : F64 := .ofRatio m (10 ^ e)

/-- -(m / 10^e). -/
def ndec (m e : Nat) : F64 := (dec m e).neg

/-- The state an outcome goes on in. -/
def nextOf : Host.Outcome State Fault Refusal → Option State
  | .next s => some s
  | .fault _ => none
  | .refused _ => none

/-- The offset vector O of 95_test_vectors.md. -/
def offs : Seven F64 := ⟨.zero, dec 1 1, dec 2 1, dec 3 1, dec 4 1, dec 5 1, dec 6 1⟩

/-- A fresh core with NMAX = 128. -/
def fresh : State := { State.reset with nmax := 128 }

/-- The same core after INIT 48000, O. -/
def voice : State := { fresh with sr := .ofInt 48000, initd := true, ssp := offs }

/-- The same core faulted. -/
def faulted : State := { voice with fault := .arrayLength, finfo := ⟨1, 0⟩ }

/-- A sample step's locals: start phase, increment and clamped parameters. -/
def atPhase (s : State) (p0 dt f pw det fmi tim : F64) : State :=
  { s with smp := { Sample.idle with p0 := p0, dt := dt, f := f, pw := pw, det := det, fmi := fmi, tim := tim } }

/-- Block-constant sources. -/
def consts (m f g pw det fm tim : F64) : Sources :=
  ⟨.const m, .const f, .const g, .const pw, .const det, .const fm, .const tim⟩

/-- Sources whose frequency is an array. -/
def freqArray (m : F64) (fs : List F64) : Sources :=
  { consts m (.ofInt 1000) .one .half (dec 15 2) .half .zero with freq := ⟨.ofInt 1000, fs⟩ }

/-- A quiet NaN. -/
def aNaN : F64 := ⟨0x7FF8000000000000#64⟩

/-- A positive infinity. -/
def anInf : F64 := ⟨0x7FF0000000000000#64⟩

/-- A RENDER in progress, at its sample 1 of 3, in mode 2. -/
def midRender : State := { voice with rend := some ⟨3, consts .two (.ofInt 1000) .one .half .zero .zero .half, 1⟩ }

/-! ## Form (30_encoding.md R81) -/

theorem test_wellformed_refuses_init_word : (Instr.unrecognised 0x00000001#32).WellFormed = false := by decide

theorem test_wellformed_refuses_render_word : (Instr.unrecognised 0x00000002#32).WellFormed = false := by decide

theorem test_wellformed_refuses_reset_word : (Instr.unrecognised 0x00000010#32).WellFormed = false := by decide

theorem test_wellformed_admits_nop : (Instr.unrecognised 0x00000000#32).WellFormed = true := by decide

/-! ## Decoding: words written out from the tables of 30_encoding.md R72 and R79, and V1 -/

theorem test_decode_init : (decodeCommand ⟨0b00000000000000000000000000000001#32, .init .one offs⟩).toOption =
    some (.init .one offs) := by decide +kernel

theorem test_decode_render :
    (decodeCommand ⟨0b00000000000000000000000000000010#32, .render 3 (freqArray .zero [.one])⟩).toOption =
      some (.render 3 (freqArray .zero [.one])) := by decide +kernel

theorem test_decode_reset : (decodeCommand ⟨0b00000000000000000000000000010000#32, .empty⟩).toOption = some .reset := by
  decide +kernel

theorem test_decode_unrecognised : [0x00000000#32, 0x00000003#32, 0x00000011#32, 0x0000007F#32, 0x00000101#32, 0x80000002#32,
    0xFFFFFFFF#32].all (fun w => decide (decodeTableWord 32 w.toNat = some (.unrecognised w))) = true := by decide +kernel

theorem test_decode_modes : [(0b000#3, Instr.saw), (0b001#3, .pulse), (0b010#3, .supersaw), (0b011#3, .fm2op),
    (0b100#3, .pdfold)].all (fun c => decide ((decodeMode c.1).toOption = some c.2)) = true := by decide +kernel

theorem test_decode_reserved_modes :
    [5, 6, 7, 8].all (fun w => decide (decodeTableWord 8 w = none)) = true := by decide +kernel

theorem test_decode_wrong_shape : (decodeCommand ⟨0x00000010#32, .init .one offs⟩).toOption = none := by decide +kernel

theorem test_decode_bytes : (decodeBytes [0x10, 0x00, 0x00, 0x00, 0x55] .empty).toOption = some (.reset, [0x55]) := by
  decide +kernel

theorem test_decode_bytes_short : (decodeBytes [0x10, 0x00, 0x00] .empty).toOption = none := by decide +kernel

/-- V2. -/
theorem test_mode_code : [(dec 27 1, 2#3), (ndec 1 0, 0#3), (ndec 5 1, 0#3), (dec 3999 3, 3#3), (dec 4 0, 4#3), (dec 45 1, 4#3),
    (dec 9 0, 4#3)].all (fun c => decide (modeCode c.1 = c.2)) = true := by decide +kernel

/-! ## Text form (30_encoding.md R83, R84) -/

theorem test_assemble_word : (Asm.assemble ".word 0x0000007F".toList).toOption = some ⟨0x0000007F#32, .empty⟩ := by
  decide +kernel

theorem test_assemble_renderk : (Asm.assemble "RENDERK 2, 9.0, 1e9, 2, 0, -1, 5, 7".toList).toOption =
    some (.renderK 2 (.ofInt 9) (.ofInt 1000000000) (.ofInt 2) .zero (.ofInt (-1)) (.ofInt 5) (.ofInt 7)) := by decide +kernel

/-! ## Arithmetic (00_scope.md section 6) -/

/-- 0.1 + 0.2 in binary64, by hand from the two significands. -/
theorem test_add_rounds : (dec 1 1).add (dec 2 1) = ⟨0x3FD3333333333334#64⟩ := by decide +kernel

theorem test_floor_negative : (ndec 25 2).floor = .ofInt (-1) := by decide +kernel

/-! ## Primitives (V3, V4, V5) -/

theorem test_clamp_freq : clampFreq RefSine.params (.ofInt 48000) (.ofInt 30000) = .ofInt 21600 ∧
    clampFreq RefSine.params (.ofInt 48000) (.ofInt 440) = .ofInt 440 := by decide +kernel

theorem test_clamp_unit : clampUnit (.ofInt 2) = .one ∧ clampUnit (.ofInt (-1)) = .zero ∧ clampUnit (dec 3 1) = dec 3 1 := by
  decide +kernel

theorem test_clamp_width : clampPW .zero = dec 5 2 ∧ clampPW .one = dec 95 2 ∧ clampPW (dec 9 1) = dec 9 1 := by decide +kernel

theorem test_inc : inc (.ofInt 48000) (.ofInt 100) = dec 20833333333333333 19 ∧
    inc (.ofInt 13) ((dec 45 2).mul (.ofInt 13)) = dec 45000000000000007 17 := by decide +kernel

theorem test_advance : advance (dec 999 3) (dec 2 3) = dec 9999999999998899 19 ∧ advance (dec 9 1) (dec 1 1) = .zero ∧
    advance (dec 99 2) (dec 45 2) = dec 43999999999999995 17 := by decide +kernel

theorem test_polyblep : polyBlep (dec 125 3) (dec 25 2) = ndec 25 2 ∧ polyBlep (dec 875 3) (dec 25 2) = dec 25 2 ∧
    polyBlep (dec 999 3) (dec 25 2) = dec 992016 6 := by decide +kernel

theorem test_wrapneg : wrapNeg (ndec 25 2) = dec 75 2 ∧ wrapNeg (dec 25 2) = dec 25 2 := by decide +kernel

theorem test_frac : frac (ndec 25 2) = dec 75 2 ∧ frac (dec 15 1) = dec 5 1 := by decide +kernel

theorem test_softclip : softClip (.ofInt (-1)) = ndec 4 1 ∧ softClip (.ofInt 1000000) = dec 6666662222225185 16 := by
  decide +kernel

theorem test_dc_output : dcOutput .one (dec 995 3) .one = dec 990025 6 := by decide +kernel

/-! ## Generators (V6 to V10) -/

theorem test_saw : (nextOf (exec .saw (atPhase voice (dec 995 3) (dec 1 2) .zero .zero .zero .zero .zero))).map (·.smp.x) =
    some (dec 7400000000000004 16) := by decide +kernel

theorem test_saw_low : (nextOf (exec .saw (atPhase voice (dec 5 3) (dec 1 2) .zero .zero .zero .zero .zero))).map (·.smp.x) =
    some (ndec 74 2) := by decide +kernel

theorem test_pulse : (nextOf (exec .pulse (atPhase voice (dec 495 3) (dec 1 2) .zero .half .zero .zero .zero))).map (·.smp.x) =
    some (dec 7500000000000004 16) := by decide +kernel

theorem test_pulse_wraps :
    (nextOf (exec .pulse (atPhase voice (dec 995 3) (dec 1 2) .zero .half .zero .zero .zero))).map (·.smp.x) =
      some (ndec 7500000000000004 16) := by decide +kernel

theorem test_supersaw_sample :
    (nextOf (exec .supersaw (atPhase voice .zero .zero (.ofInt 1000) .zero .zero .zero .zero))).map (·.smp.x) =
      some (ndec 2571428571428571 16) := by decide +kernel

theorem test_supersaw_phases :
    (nextOf (exec .supersaw (atPhase voice .zero .zero (.ofInt 1000) .zero .zero .zero .zero))).map (·.ssp) =
      some ⟨dec 20645833333333332 18, dec 12070833333333333 17, dec 22077083333333333 17, dec 3208333333333333 16,
        dec 42089583333333336 17, dec 5209583333333333 16, dec 6210208333333334 16⟩ := by decide +kernel

/-- V9, second row, for the reference SIN. -/
theorem test_fm2op : fm2op RefSine.params .zero (dec 25 2) (inc (.ofInt 48000) (.ofInt 1000)) .one .one =
    dec 5454545454545454 16 := by decide +kernel

theorem test_fm2op_phase : (nextOf (exec .fm2op (atPhase { voice with phase2 := dec 25 2 } .zero .zero (.ofInt 1000) .zero .zero
    .one .one))).map (·.phase2) = some (dec 38541666666666663 17) := by decide +kernel

/-- V10, eighth and ninth rows, for the reference SIN. -/
theorem test_pdfold : pdfold RefSine.params (dec 125 3) .one .half = ndec 8733817079967274 17 := by decide +kernel

theorem test_pdfold_upper : pdfold RefSine.params (dec 3 1) .half .one = dec 34082727109454913 17 := by decide +kernel

/-! ## Commands (V13, P1, P2) -/

theorem test_init : (nextOf (exec (.init (.ofInt 48000) offs) fresh)) =
    some { voice with resp := some ⟨.ok, none⟩ } := by decide +kernel

theorem test_init_rejects : (nextOf (exec (.init (.ofInt 48000) { offs with v3 := .one }) fresh)) =
    some { fresh with resp := some ⟨.initRejected, none⟩ } := by decide +kernel

/-- P1: output and DC state. -/
theorem test_render : (nextOf (exec (.render 4 (consts .zero (.ofInt 100) .one .half (dec 15 2) .zero .half)) voice)).map
    (fun t => (t.out, t.phase, t.dcX, t.dcY)) =
      some ([(0, .zero), (1, ndec 9958333333333333 16), (2, ndec 9866875 7), (3, ndec 9775873958333334 16)],
        dec 8333333333333333 18, ndec 9875 4, ndec 9775873958333334 16) := by decide +kernel

/-- V13: NMAX is checked before INITD. -/
theorem test_render_too_long : (nextOf (exec (.render 129 (freqArray .zero [])) fresh)) =
    some { fresh with fault := .blockLength, finfo := ⟨7, 0⟩,
                      resp := some ⟨.faulted .blockLength ⟨7, 0⟩, some false⟩ } := by decide +kernel

/-- P2: RESET keeps the DC state. -/
theorem test_reset : (nextOf (exec .reset { voice with phase := dec 75 2, dcX := .one, dcY := dec 10048 4 })) =
    some { voice with ssp := .fill .zero, dcX := .one, dcY := dec 10048 4, resp := some ⟨.ok, none⟩ } := by decide +kernel

theorem test_reset_before_init : (nextOf (exec .reset fresh)).map (·.resp) = some (some ⟨.ignored, none⟩) := by decide +kernel

theorem test_unrecognised : (nextOf (exec (.unrecognised 0x0000007F#32) faulted)) =
    some { faulted with resp := some ⟨.faulted .arrayLength ⟨1, 0⟩, none⟩ } := by decide +kernel

/-! ## Steps: each table row placed as the next instruction after reset -/

theorem test_fetch_init : (nextOf (step (State.reset.withFetchWord 32 0x00000001))).map (·.resp) =
    some (some ⟨.initRejected, none⟩) := by decide +kernel

theorem test_fetch_reset : (nextOf (step (State.reset.withFetchWord 32 0x00000010))).map (·.resp) =
    some (some ⟨.ignored, none⟩) := by decide +kernel

theorem test_fetch_modes : [0, 1, 2, 3, 4].all (fun m => (nextOf (step (State.reset.withFetchWord 8 m))).isSome) = true := by
  decide +kernel

/-! ## Witnesses: for each obligation with hypotheses, concrete values that meet them, clause by clause -/

/-- A state after a valid INIT with nothing in progress meets the invariant. -/
theorem voice_inv : voice.Inv where
  rate := fun _ => by decide +kernel
  phases := fun _ => ⟨by decide +kernel, by decide +kernel, by decide +kernel⟩
  out := by decide
  info := rfl
  render := fun _ h => by cases h
  locals := rfl
  nmax := by decide

theorem faulted_inv : faulted.Inv where
  rate := fun _ => by decide +kernel
  phases := fun _ => ⟨by decide +kernel, by decide +kernel, by decide +kernel⟩
  out := by decide
  info := ⟨by decide, rfl⟩
  render := fun _ h => by cases h
  locals := rfl
  nmax := by decide

theorem midRender_inv : midRender.Inv where
  rate := fun _ => by decide +kernel
  phases := fun _ => ⟨by decide +kernel, by decide +kernel, by decide +kernel⟩
  out := by decide
  info := rfl
  render := fun pr h => by
    cases h
    exact ⟨rfl, rfl, by decide, by decide, by decide +kernel, by decide +kernel⟩
  locals := rfl
  nmax := by decide

theorem witness_DecodeEncodeAgree : (Instr.unrecognised 0xFFFFFFFF#32).WellFormed = true ∧ Instr.pdfold.WellFormed = true := by
  decide

theorem witness_EncodeDecodeAgree : (∃ c i, decodeCommand c = .ok i ∧ cmdKind c.word = .unrecognised ∧ c.ops ≠ .empty) ∧
    (∃ c i, decodeCommand c = .ok i ∧ cmdKind c.word ≠ .unrecognised) ∧ (∃ i, decodeMode 4#3 = .ok i) :=
  ⟨⟨⟨0x0000007F#32, .init .one offs⟩, _, rfl, by decide, by decide⟩, ⟨⟨0x00000010#32, .empty⟩, _, rfl, by decide⟩, ⟨_, rfl⟩⟩

/-- The boundary of each clause: 0.75, 1, 2, 3 and 4. -/
theorem witness_ModeCodeIsFlooredAndClamped :
    ((dec 75 2).isFinite = true ∧ (dec 75 2).lt (.ofInt 1) = true) ∧ (F64.ofInt 1).isFinite = true ∧
    (F64.ofInt 2).isFinite = true ∧ (F64.ofInt 3).isFinite = true ∧ (F64.ofInt 4).isFinite = true := by decide +kernel

theorem witness_ArithmeticIsCorrectlyRounded :
    (dec 1 1).isFinite = true ∧ (dec 3 1).isFinite = true ∧ (dec 3 1).val ≠ 0 := by decide +kernel

theorem witness_LiteralsAreNearest : 0 < 1000 := by decide

theorem witness_FloorIsExact : (ndec 5 1).isFinite = true := by decide +kernel

/-- An array of length 2, and arrays of lengths 1 and 0. -/
theorem witness_ResolveTakesTheArrayOrTheConstant :
    1 < ((freqArray .zero [.one, .two]).get .freq).arr.length ∧ ((freqArray .zero [.one]).get .freq).arr.length ≤ 1 ∧
    ((freqArray .zero []).get .freq).arr.length ≤ 1 := by decide

/-- The clauses: just above the bound, at 0 with an admissible FREQ_FLOOR, at the bound; and a small sample rate
whose bound is positive. -/
theorem witness_FrequencyIsClamped :
    (F64.zero.lt (RefSine.params.freqFloor (.ofInt 48000)) = true ∧
      (RefSine.params.freqFloor (.ofInt 48000)).le ((F64.ofRatio 45 100).mul (.ofInt 48000)) = true) ∧
    (rateOk (.ofInt 48000) = true ∧ F64.zero.lt ((F64.ofRatio 45 100).mul (.ofInt 48000)) = true) ∧
    ((F64.ofRatio 45 100).mul (.ofInt 48000)).lt (.ofInt 21601) = true ∧ (F64.zero.isFinite = true ∧ F64.zero.le .zero = true) ∧
    (F64.zero.lt (.ofInt 21600) = true ∧ (F64.ofInt 21600).le ((F64.ofRatio 45 100).mul (.ofInt 48000)) = true) ∧
    rateOk ⟨2#64⟩ = true ∧ F64.zero.lt ((F64.ofRatio 45 100).mul ⟨2#64⟩) = true := by decide +kernel

/-- The five clauses: 0 and 1, below 0, above 1; 0.05 and 0.95, below 0.05, above 0.95. -/
theorem witness_UnitAndWidthAreClamped :
    (F64.zero.le .zero = true ∧ F64.one.le .one = true) ∧ (ndec 1 2).lt .zero = true ∧ F64.one.lt (.ofInt 2) = true ∧
    ((dec 5 2).le (dec 5 2) = true ∧ (dec 95 2).le (dec 95 2) = true) ∧ F64.zero.lt (dec 5 2) = true ∧
    (dec 95 2).lt .one = true := by decide +kernel

theorem witness_AdvanceWrapsExactly :
    ((dec 75 2).inUnit = true ∧ (dec 25 2).inUnit = true ∧ F64.one.le ((dec 75 2).add (dec 25 2)) = true) ∧
    ((dec 5 1).inUnit = true ∧ (dec 45 2).inUnit = true ∧ ((dec 5 1).add (dec 45 2)).lt .one = true) := by decide +kernel

theorem witness_AdvancedPhaseStaysInTheUnit : (dec 99 2).inUnit = true ∧ (dec 99 2).inUnit = true := by decide +kernel

/-- A phase below the pulse width, and one at it. -/
theorem witness_FallingEdgePositionWraps :
    F64.zero.inUnit = true ∧ (dec 5 2).isFinite = true ∧ (F64.ofRatio 5 100).le (dec 5 2) = true ∧
    (dec 5 2).le (.ofRatio 95 100) = true ∧ F64.zero.lt (dec 5 2) = true ∧ (dec 5 2).inUnit = true ∧
    (dec 5 2).lt (dec 5 2) = false := by decide +kernel

theorem witness_IncrementsStayBelowOne :
    rateOk ⟨1#64⟩ = true ∧ rateOk (.ofInt 48000) = true ∧ (F64.ofInt 21600).isFinite = true ∧ F64.one.isFinite = true := by
  decide +kernel

/-- The three branches, at dt = 0.25. -/
theorem witness_PolyBlepTakesItsBranches :
    (dec 125 3).lt (dec 25 2) = true ∧ ((dec 875 3).lt (dec 25 2) = false ∧ (F64.one.sub (dec 25 2)).lt (dec 875 3) = true) ∧
    ((dec 25 2).lt (dec 25 2) = false ∧ (F64.one.sub (dec 25 2)).lt (dec 25 2) = false) := by decide +kernel

theorem witness_PolyBlepCornerValues :
    (F64.half.isFinite = true ∧ F64.zero.lt .half = true ∧ F64.half.le .half = true ∧ (F64.one.sub .half).lt .one = true) ∧
    (F64.one.isFinite = true ∧ F64.zero.le .one = true ∧ F64.one.le .one = true) := by decide +kernel

theorem witness_FractionLiesInTheUnit : (ndec 1 300).isFinite = true := by decide +kernel

theorem witness_SupersawCompletes : ∃ dtk : F64, ∃ xs : Fin 7 → F64,
    dtk = (voice.smp.f.mul (F64.one.add ((F64.ofInt ((6 : Fin 7).val - 3)).mul
      ((F64.ofRatio 3 1000).add (voice.smp.det.mul (.ofRatio 2 100)))))).div voice.sr ∧
    ∀ i : Fin 7, xs i = saw (voice.ssp.get i) ((voice.smp.f.mul (F64.one.add ((F64.ofInt (i.val - 3)).mul
      ((F64.ofRatio 3 1000).add (voice.smp.det.mul (.ofRatio 2 100)))))).div voice.sr) := ⟨_, fun _ => _, rfl, fun _ => rfl⟩

theorem witness_Fm2opCompletes : ∃ r f2 idx modv cp : F64,
    r = (F64.ofRatio 1 2).add (voice.smp.tim.mul (.ofInt 6)) ∧ f2 = clampFreq Config.params voice.sr (voice.smp.f.mul r) ∧
    idx = voice.smp.fmi.mul ((F64.ofInt 2).add ((F64.ofInt 10).mul voice.smp.tim)) ∧
    modv = Config.sin (twoPi.mul voice.phase2) ∧ cp = voice.smp.p0.add ((modv.mul idx).mul voice.smp.dt) :=
  ⟨_, _, _, _, _, rfl, rfl, rfl, rfl, rfl⟩

theorem witness_PdfoldCompletes : ∃ a w z : F64,
    a = (F64.ofRatio 5 100).add (voice.smp.tim.mul (.ofRatio 9 10)) ∧
    w = (if voice.smp.p0.lt a then (voice.smp.p0.div a).mul (.ofRatio 1 2)
      else (F64.ofRatio 1 2).add (((voice.smp.p0.sub a).div (F64.one.sub a)).mul (.ofRatio 1 2))) ∧
    z = (Config.sin (twoPi.mul w)).mul (F64.one.add (voice.smp.fmi.mul (.ofInt 6))) := ⟨_, _, _, rfl, rfl, rfl⟩

theorem witness_SawIsZeroAtItsEdge : (dec 1 2).isFinite = true ∧ F64.zero.lt (dec 1 2) = true := by decide +kernel

theorem witness_SupersawOfEqualPhasesStartsAtZero :
    ∀ k : Int, -3 ≤ k → k ≤ 3 → (voiceInc (.ofInt 48000) (.ofInt 1000) (spread .one) k).isFinite = true ∧
      F64.zero.lt (voiceInc (.ofInt 48000) (.ofInt 1000) (spread .one) k) = true := by
  intro k h1 h2
  have h : k = -3 ∨ k = -2 ∨ k = -1 ∨ k = 0 ∨ k = 1 ∨ k = 2 ∨ k = 3 := by omega
  rcases h with rfl | rfl | rfl | rfl | rfl | rfl | rfl <;> decide +kernel

/-- The timbres 1 and 0. -/
theorem witness_FmWithoutIndexIsAClippedSine :
    ((dec 25 2).inUnit = true ∧ (dec 25 2).sgn = false ∧ (dec 45 2).inUnit = true) ∧
    (F64.zero.le .one = true ∧ F64.one.le .one = true) ∧ (F64.zero.le .zero = true ∧ F64.zero.le .one = true) ∧
    (RefSine.params.sin (twoPi.mul .zero)).isFinite = true ∧
    (RefSine.params.sin (twoPi.mul (frac (dec 25 2)))).isFinite = true := by decide +kernel

theorem witness_WarpMeetsAtTheBreakpoint :
    F64.half.isFinite = true ∧ F64.zero.lt .half = true ∧ F64.half.lt .one = true := by decide +kernel

theorem witness_SoftClipIsOddAndBounded : (dec 1 2).isFinite = true ∧ (F64.ofInt (10 ^ 300)).isFinite = true := by
  decide +kernel

theorem witness_ConstantInputDecays : F64.one.isFinite = true ∧ (ndec 995 3).isFinite = true := by decide +kernel

/-- A RENDER at sample 1 of 3 and one at its last sample; every mode has a value whose code selects it. -/
theorem witness_SampleStepFollowsItsProcedure :
    (∃ pr r, midRender.rend = some pr ∧ resolveAll pr.src pr.index = some r ∧ modeCode r.mode = 2#3 ∧ pr.index + 1 < pr.len) ∧
    (∃ s : State, ∃ pr r, s.rend = some pr ∧ resolveAll pr.src pr.index = some r ∧ pr.len ≤ pr.index + 1) ∧
    modeCode .zero = 0#3 ∧ modeCode .one = 1#3 ∧ modeCode (.ofInt 3) = 3#3 ∧ modeCode (.ofInt 4) = 4#3 :=
  ⟨⟨_, ⟨.two, .ofInt 1000, .one, .half, .zero, .zero, .half⟩, rfl, by decide +kernel, by decide +kernel, by decide⟩,
    ⟨voice.withFetchWord 8 0, _, ⟨.zero, .zero, .zero, .zero, .zero, .zero, .zero⟩, rfl, by decide +kernel, by decide⟩,
    by decide +kernel, by decide +kernel, by decide +kernel, by decide +kernel⟩

/-- Valid operands, the offset 0 among them; a zero rate; an offset of 1. -/
theorem witness_InitFollowsItsProcedure :
    fresh.fault = .noFault ∧
    ((F64.ofInt 48000).isFinite = true ∧ F64.zero.lt (.ofInt 48000) = true ∧
      ∀ i, (offs.get i).isFinite = true ∧ F64.zero.le (offs.get i) = true ∧ (offs.get i).lt .one = true) ∧
    F64.zero.lt .zero = false ∧ F64.one.lt .one = false := by decide +kernel

theorem witness_InitForgetsTheOldVoice :
    fresh.fault = .noFault ∧ voice.fault = .noFault ∧ fresh.finfo = voice.finfo ∧ fresh.nmax = voice.nmax ∧
    rateOk (.ofInt 44100) = true ∧ offsetsOk offs = true := by decide +kernel

theorem witness_ResetZeroesPhasesOnly :
    (voice.fault = .noFault ∧ voice.initd = true) ∧ (fresh.fault = .noFault ∧ fresh.initd = false) := by decide

theorem witness_UnrecognisedIsIgnored : voice.fault = .noFault := rfl

theorem witness_FaultedCoreOnlyAnswers : faulted.fault ≠ .noFault := by decide

/-- One frame more than NMAX; the first bad array at parameter 1, after a good parameter 0; a NaN in the second sample of
parameter 1, after a finite sample. -/
theorem witness_RenderFaultsOnOperandsOutsideItsContract :
    (fresh.fault = .noFault ∧ fresh.nmax < 129) ∧
    (voice.fault = .noFault ∧ 3 ≤ voice.nmax ∧ voice.initd = true ∧
      1 < ((freqArray .zero [.one, .two]).get .freq).arr.length ∧ ((freqArray .zero [.one, .two]).get .freq).arr.length ≠ 3 ∧
      ∀ q : Param, q.index < Param.freq.index →
        ((freqArray .zero [.one, .two]).get q).arr.length ≤ 1 ∨ ((freqArray .zero [.one, .two]).get q).arr.length = 3) ∧
    ((∀ q, ((freqArray .zero [.one, aNaN]).get q).arr.length ≤ 1 ∨ ((freqArray .zero [.one, aNaN]).get q).arr.length = 2) ∧
      resolve (freqArray .zero [.one, aNaN]) .freq 1 = some aNaN ∧ aNaN.isFinite = false ∧ anInf.isFinite = false ∧
      ∀ j q w, j < 1 ∨ (j = 1 ∧ q.index < Param.freq.index) →
        resolve (freqArray .zero [.one, aNaN]) q j = some w → w.isFinite = true) := by
  refine ⟨by decide, ⟨rfl, by decide, rfl, by decide, by decide, fun q => by cases q <;> decide⟩,
    fun q => by cases q <;> decide, rfl, by decide, by decide, ?_⟩
  intro j q w hj h
  have hfin : ∀ k q, (k < 1 ∨ (k = 1 ∧ q.index < Param.freq.index)) →
      ((resolve (freqArray .zero [.one, aNaN]) q k).all F64.isFinite) = true := by
    intro k q hk
    rcases hk with hk | ⟨rfl, hq⟩
    · obtain rfl : k = 0 := by omega
      cases q <;> decide +kernel
    · cases q <;> first | decide +kernel | exact absurd hq (by decide)
  have := hfin j q hj
  rw [h] at this
  simpa using this

theorem witness_RenderBeforeInitIsSilent : fresh.fault = .noFault ∧ 128 ≤ fresh.nmax ∧ fresh.initd = false := by decide

/-- Two frames with one array of that length, in mode 0 throughout. -/
theorem witness_RenderCompletes : voice.fault = .noFault ∧ 2 ≤ voice.nmax ∧ voice.initd = true ∧
    (∀ p, ((freqArray .zero [.one, .two]).get p).arr.length ≤ 1 ∨ ((freqArray .zero [.one, .two]).get p).arr.length = 2) ∧
    (∀ p k v, k < 2 → resolve (freqArray .zero [.one, .two]) p k = some v → v.isFinite = true) ∧
    (∀ k v, k < 2 → resolve (freqArray .zero [.one, .two]) .mode k = some v → modeCode v ≠ 3#3 ∧ modeCode v ≠ 2#3) := by
  refine ⟨rfl, by decide, rfl, fun p => by cases p <;> decide, fun p k v hk h => ?_, fun k v _ h => ?_⟩
  · have h0 : firstNonFinite (freqArray .zero [.one, .two]) 2 = none := by decide +kernel
    exact firstNonFinite_eq_none.mp h0 k hk p v h
  · have hv : v = F64.zero := by simpa [resolve, arrayLen, freqArray, consts, Sources.get, Source.const] using h.symm
    subst hv
    decide +kernel

theorem witness_RenderOfNoFramesChangesNothing :
    voice.fault = .noFault ∧ voice.initd = true ∧ voice.rend = none ∧ voice.smp = .idle ∧
    ∀ p, ((freqArray .zero [.one]).get p).arr.length ≤ 1 := by
  refine ⟨rfl, rfl, rfl, rfl, fun p => ?_⟩
  cases p <;> decide

theorem witness_RenderIsItsSampleStepsInOrder :
    voice.fault = .noFault ∧ 1 ≤ 2 ∧ 2 ≤ voice.nmax ∧ voice.initd = true ∧
    firstBadArray 2 (freqArray .one [.one, .two]) = none ∧ firstNonFinite (freqArray .one [.one, .two]) 2 = none := by
  decide +kernel

theorem witness_BlocksOfConstantParametersSplit :
    voice.fault = .noFault ∧ voice.initd = true ∧ 100 + 28 ≤ voice.nmax ∧
    (∀ p, ((freqArray .two [aNaN]).get p).arr.length ≤ 1) ∧ ∀ p, ((freqArray .two [aNaN]).get p).kval.isFinite = true := by
  refine ⟨rfl, rfl, by decide, fun p => ?_, fun p => ?_⟩ <;> cases p <;> decide +kernel

/-- An ignored array of length 1 beside an empty one. -/
theorem witness_RenderDependsOnResolvedValuesOnly :
    (∀ p, ((freqArray .zero [.one]).get p).arr.length ≤ 1 ∨ ((freqArray .zero [.one]).get p).arr.length = 2) ∧
    (∀ p, ((freqArray .zero []).get p).arr.length ≤ 1 ∨ ((freqArray .zero []).get p).arr.length = 2) ∧
    (∀ p k, k < 2 → resolve (freqArray .zero [.one]) p k = resolve (freqArray .zero []) p k) ∧
    freqArray .zero [.one] ≠ freqArray .zero [] := by
  refine ⟨fun p => ?_, fun p => ?_, fun p k _ => ?_, by decide +kernel⟩ <;> cases p <;> first | decide | rfl

theorem witness_RenderIsAFunctionOfTheRecord : ∃ s u : State, s.SameRecord u ∧ s.out ≠ u.out ∧ s.resp ≠ u.resp ∧
    ∃ t, exec (.render 2 (freqArray .zero [.one, .two])) s = .next t ∧ t.fault = .noFault := by
  have h0 : firstBadArray 2 (freqArray .zero [.one, .two]) = none := by decide +kernel
  have h1 : firstNonFinite (freqArray .zero [.one, .two]) 2 = none := by decide +kernel
  obtain ⟨t, ht⟩ := renderLoop_completes Config.params (k := 2) (pr := ⟨2, freqArray .zero [.one, .two], 0⟩)
    (beginRender voice 2 (freqArray .zero [.one, .two])) fun j hj => by simpa using exists_resolveAll h0 h1 hj
  refine ⟨voice, { voice with out := [(0, .one)], resp := some ⟨.ok, none⟩ },
    ⟨rfl, rfl, rfl, rfl, rfl, rfl, rfl, rfl, rfl, rfl⟩, by decide, by decide, t, ?_, (renderLoop_frame ht).2.2.1⟩
  show renderWith Config.params 2 (freqArray .zero [.one, .two]) voice = .next t
  unfold renderWith
  rw [if_neg (by decide), if_neg (by decide), if_neg (by decide), h0, h1]
  exact ht

theorem witness_EveryCommandReturnsItsStatus :
    (∃ t, exec (.init .zero offs) fresh = .next t) ∧ (∃ t, exec (.render 2 (freqArray .zero [])) fresh = .next t) ∧
    (∃ t, exec .reset fresh = .next t) ∧ ∃ t, exec (.unrecognised 0#32) fresh = .next t :=
  ⟨⟨_, rfl⟩, ⟨_, rfl⟩, ⟨_, rfl⟩, ⟨_, rfl⟩⟩

/-- No command; a command; a pair that is none. -/
theorem witness_StepRunsTheNextCommand :
    (voice.rend = none ∧ voice.cmds = []) ∧
    (∃ s c rest i, s.rend = none ∧ State.cmds s = c :: rest ∧ decodeCommand c = .ok i) ∧
    (∃ s c rest e, s.rend = none ∧ State.cmds s = c :: rest ∧ decodeCommand c = .error e) :=
  ⟨⟨rfl, rfl⟩, ⟨{ voice with cmds := [⟨0x00000010#32, .empty⟩] }, _, _, _, rfl, rfl, rfl⟩,
    ⟨{ voice with cmds := [⟨0x00000001#32, .empty⟩] }, _, _, _, rfl, rfl, rfl⟩⟩

/-- A value that resolves; an array too short for its sample. -/
theorem witness_StepRunsTheSelectedGenerator :
    (∃ pr r, midRender.rend = some pr ∧ resolveAll pr.src pr.index = some r) ∧
    (∃ s : State, ∃ pr, s.rend = some pr ∧ resolveAll pr.src pr.index = none) :=
  ⟨⟨_, ⟨.two, .ofInt 1000, .one, .half, .zero, .zero, .half⟩, rfl, by decide +kernel⟩,
    ⟨{ voice with rend := some ⟨3, freqArray .zero [.one, .two], 2⟩ }, _, rfl, by decide +kernel⟩⟩

theorem witness_PlacedWordRunsNext : decodeTableWord 32 0x00000010 = some .reset ∧
    decodeTableWord 32 0xFFFFFFFF = some (.unrecognised 0xFFFFFFFF#32) := by decide +kernel

/-- A waiting core, and a RENDER in progress. -/
theorem witness_EveryStepKeepsTheInvariant :
    (voice.Inv ∧ step voice = .next voice) ∧ (midRender.Inv ∧ (nextOf (step midRender)).isSome = true) :=
  ⟨⟨voice_inv, rfl⟩, midRender_inv, by decide +kernel⟩

theorem witness_SafeCoreNeverStops : voice.Inv ∧ voice.HostOk ∧ midRender.Inv ∧ midRender.HostOk :=
  ⟨voice_inv, fun c h => absurd (show c ∈ ([] : List Command) from h) (by simp), midRender_inv,
    fun c h => absurd (show c ∈ ([] : List Command) from h) (by simp)⟩

theorem witness_FaultIsNeverCleared : faulted.Inv ∧ faulted.fault ≠ .noFault ∧ step faulted = .next faulted :=
  ⟨faulted_inv, by decide, rfl⟩

/-- A step that initialises, and one from an initialised core. -/
theorem witness_OnlyInitWritesRateAndInitialised :
    (∃ s t : State, step s = .next t ∧ t.initd ≠ s.initd) ∧ (voice.initd = true ∧ step voice = .next voice) := by
  refine ⟨⟨{ fresh with cmds := [⟨0x00000001#32, .init (.ofInt 48000) offs⟩] }, { voice with resp := some ⟨.ok, none⟩ }, ?_, by decide⟩, rfl, rfl⟩
  have h : nextOf (step { fresh with cmds := [⟨0x00000001#32, .init (.ofInt 48000) offs⟩] }) =
      some { voice with resp := some ⟨.ok, none⟩ } := by decide +kernel
  revert h
  cases step { fresh with cmds := [⟨0x00000001#32, .init (.ofInt 48000) offs⟩] } <;> simp [nextOf]

end Sys2Proof.Tests
end

section
/-! PROOFS. Arithmetic (00_scope.md R7, R8, R9): a packed rounded magnitude is the correctly rounded signed ratio, the four
operations and the literals are such data, and the floor of a finite value is exact. -/

namespace Sys2Proof.F64

/-! ## Signed magnitudes -/

/-- The integer with the given sign and absolute value, as `val` reads a datum. -/
def signed (b : Bool) (n : Nat) : Int := if b then -(n : Int) else (n : Int)

theorem val_eq_signed (x : F64) : x.val = signed x.sgn (magUnits x.mag) := rfl

theorem val_pack_signed {b : Bool} {c : Nat} (h : c < 2 ^ 63) : (pack b c).val = signed b (magUnits c) := val_pack h

@[simp] theorem signed_true (n : Nat) : signed true n = -(n : Int) := rfl

@[simp] theorem signed_false (n : Nat) : signed false n = (n : Int) := rfl

@[simp] theorem signed_zero (b : Bool) : signed b 0 = 0 := by cases b <;> rfl

@[simp] theorem natAbs_signed (b : Bool) (n : Nat) : (signed b n).natAbs = n := by cases b <;> simp

theorem natAbs_val (x : F64) : x.val.natAbs = magUnits x.mag := by rw [val_eq_signed, natAbs_signed]

/-- An integer is its sign and its absolute value. -/
theorem signed_natAbs (t : Int) : signed (decide (t < 0)) t.natAbs = t := by
  by_cases h : t < 0
  · rw [decide_eq_true h, signed_true]; omega
  · rw [decide_eq_false h, signed_false]; omega

theorem signed_mul_signed (a b : Bool) (m n : Nat) : signed a m * signed b n = signed (a != b) (m * n) := by
  cases a <;> cases b <;> simp

theorem mul_signed (b : Bool) (q n : Nat) : (q : Int) * signed b n = signed b (q * n) := by
  simpa using signed_mul_signed false b q n

theorem sgn_eq_of_signed_ne_zero {b : Bool} {n : Nat} (h : signed b n ≠ 0) : b = decide (signed b n < 0) := by
  cases b
  · rw [signed_false, decide_eq_false]; omega
  · rw [signed_true] at *; rw [decide_eq_true]; omega

theorem sign_signed {b : Bool} {n : Nat} (h : n ≠ 0) : (signed b n).sign = signed b 1 := by
  cases b
  · exact Int.sign_eq_one_of_pos (by rw [signed_false]; omega)
  · exact Int.sign_eq_neg_one_of_neg (by rw [signed_true]; omega)

/-- With the same sign, integers are as far apart as their absolute values. -/
theorem natAbs_signed_sub_same (b : Bool) (m n : Nat) : (signed b m - signed b n).natAbs = m.dist n := by
  unfold Nat.dist
  cases b
  · rw [signed_false, signed_false]; omega
  · rw [signed_true, signed_true]; omega

/-- With opposite signs, they are as far apart as the absolute values together. -/
theorem natAbs_signed_sub_not (b : Bool) (m n : Nat) : (signed b m - signed (!b) n).natAbs = m + n := by
  cases b
  · rw [Bool.not_false, signed_false, signed_true]; omega
  · rw [Bool.not_true, signed_false, signed_true]; omega

/-- Whatever the signs, integers are no nearer to each other than their absolute values. -/
theorem dist_le_natAbs_signed_sub (a b : Bool) (m n : Nat) : m.dist n ≤ (signed a m - signed b n).natAbs := by
  rcases Bool.eq_or_eq_not b a with rfl | rfl
  · rw [natAbs_signed_sub_same]
  · rw [natAbs_signed_sub_not, Nat.dist]; omega

/-! ## The rounded code is the nearest one, even on a tie, and overflows half a spacing beyond the greatest finite one -/

/-- A code is not over c or not under the next one. -/
theorem mul_magUnits_le_or_ge (q c m : Nat) :
    q * magUnits m ≤ q * magUnits c ∨ q * magUnits (c + 1) ≤ q * magUnits m :=
  (Nat.lt_or_ge c m).symm.imp (fun h => Nat.mul_le_mul_left q (magUnits_le_iff.mpr h))
    (fun h => Nat.mul_le_mul_left q (magUnits_le_iff.mpr h))

theorem roundMag_zero {q : Nat} (hq : 0 < q) : roundMag 0 q = 0 := by
  simpa using roundMag_exact hq (Nat.zero_le infMag)

/-- `roundMag_spec` for a result that does not overflow. -/
theorem roundMag_spec_of_lt {p q : Nat} (hq : 0 < q) (h : roundMag p q < infMag) :
    ∃ c, Below p q c ∧ ((RoundsUp p q c ∧ roundMag p q = c + 1) ∨ (¬RoundsUp p q c ∧ roundMag p q = c)) := by
  obtain ⟨c, hb, ⟨hu, (hr : _ = Min.min (c + 1) infMag)⟩ | ⟨hu, (hr : _ = Min.min c infMag)⟩⟩ := roundMag_spec (p := p) hq
  · exact ⟨c, hb, .inl ⟨hu, by omega⟩⟩
  · exact ⟨c, hb, .inr ⟨hu, by omega⟩⟩

/-- No code is nearer to p / q units than the rounded one. -/
theorem dist_roundMag_le {p q : Nat} (hq : 0 < q) (h : roundMag p q < infMag) (m : Nat) :
    p.dist (q * magUnits (roundMag p q)) ≤ p.dist (q * magUnits m) := by
  obtain ⟨c, hb, hr⟩ := roundMag_spec_of_lt hq h
  have hm := mul_magUnits_le_or_ge q c m
  have hle := hb.le
  have hlt := hb.lt
  simp only [RoundsUp, Nat.mul_add, Nat.dist] at *
  rcases hr with ⟨hu, hr⟩ | ⟨hu, hr⟩
  · rw [hr]; omega
  · rw [hr]; omega

/-- Where another code is as near, the rounded one is even. -/
theorem roundMag_even_of_tie {p q m : Nat} (hq : 0 < q) (h : roundMag p q < infMag) (hm : m ≠ roundMag p q)
    (ht : p.dist (q * magUnits (roundMag p q)) = p.dist (q * magUnits m)) : roundMag p q % 2 = 0 := by
  obtain ⟨c, hb, hr⟩ := roundMag_spec_of_lt hq h
  have hne : q * magUnits m ≠ q * magUnits (roundMag p q) :=
    (mul_right_injective₀ hq.ne').ne (magUnits_strictMono.injective.ne hm)
  have hcase := mul_magUnits_le_or_ge q c m
  have hle := hb.le
  have hlt := hb.lt
  simp only [RoundsUp, Nat.mul_add, Nat.dist] at *
  rcases hr with ⟨hu, hr⟩ | ⟨hu, hr⟩
  · rw [hr] at hne ht ⊢; omega
  · rw [hr] at hne ht ⊢; omega

/-- Rounding gives the code of infinity exactly from the midpoint beyond the greatest finite value on. -/
theorem roundMag_overflow_iff {p q : Nat} (hq : 0 < q) :
    ¬roundMag p q < infMag ↔ q * (magUnits (infMag - 1) + magUnits infMag) ≤ 2 * p := by
  obtain ⟨c, hb, hr⟩ := roundMag_spec (p := p) hq
  have heven : infMag % 2 = 0 := rfl
  have hle := hb.le
  have hlt := hb.lt
  have hmin : roundMag p q < infMag ↔ c + 1 < infMag ∨ (c + 1 = infMag ∧ ¬RoundsUp p q c) := by
    rcases hr with ⟨hu, (hr : _ = Min.min (c + 1) infMag)⟩ | ⟨hu, (hr : _ = Min.min c infMag)⟩
    · simp only [hu, not_true_eq_false, and_false, or_false]; omega
    · simp only [hu, not_false_eq_true, and_true]; omega
  rw [hmin]
  rcases Nat.lt_trichotomy (c + 1) infMag with h | h | h
  · have h1 := Nat.mul_le_mul_left q (magUnits_le_iff.mpr (show c + 1 ≤ infMag - 1 by omega))
    have h2 := Nat.mul_le_mul_left q (magUnits_le_iff.mpr (show c + 1 ≤ infMag by omega))
    rw [Nat.mul_add]
    omega
  · have hc : c = infMag - 1 := by omega
    have hodd : c % 2 = 1 := by omega
    rw [← h, Nat.add_sub_cancel]
    unfold RoundsUp
    omega
  · have h1 := Nat.mul_le_mul_left q (magUnits_le_iff.mpr (show infMag - 1 ≤ c by omega))
    have h2 := Nat.mul_le_mul_left q (magUnits_le_iff.mpr (show infMag ≤ c by omega))
    rw [Nat.mul_add]
    omega

/-- A datum that is the rounded one negated is as near as it only to an exact zero. -/
theorem eq_zero_of_dist_eq_add {p n : Nat} (hn : n ≠ 0) (h : p.dist n = p + n) : p = 0 := by
  unfold Nat.dist at h
  omega

/-- A sign and a rounded magnitude packed together are the signed ratio correctly rounded. -/
theorem roundsTo_pack {q : Nat} (hq : 0 < q) (b : Bool) (p : Nat) :
    RoundsTo (signed b p) q (pack b (roundMag p q)) := by
  have hr := roundMag_lt p q
  have hfin : (pack b (roundMag p q)).isFinite = true → roundMag p q < infMag := by simp [isFinite_pack hr]
  have hval := val_pack_signed (b := b) hr
  have hdist : (signed b p - q * (pack b (roundMag p q)).val).natAbs = p.dist (q * magUnits (roundMag p q)) := by
    rw [hval, mul_signed, natAbs_signed_sub_same]
  have hle (w : F64) : p.dist (q * magUnits w.mag) ≤ (signed b p - q * w.val).natAbs := by
    rw [val_eq_signed w, mul_signed]
    exact dist_le_natAbs_signed_sub ..
  exact {
    notNaN := by rw [isNaN_pack hr, decide_eq_false (Nat.not_lt.mpr (roundMag_le_infMag p q))]
    overflow := by
      rw [isFinite_pack hr, decide_eq_false_iff_not, natAbs_signed]
      exact roundMag_overflow_iff hq
    sign := fun hne => by
      rw [sgn_pack hr]
      exact sgn_eq_of_signed_ne_zero hne
    nearest := fun hz w _ => by
      rw [hdist]
      exact (dist_roundMag_le hq (hfin hz) w.mag).trans (hle w)
    even := fun hz w _ hne htie => by
      rw [mag_pack hr]
      rw [hdist] at htie
      by_cases hm : w.mag = roundMag p q
      · have hs : w.sgn = !b := (Bool.eq_or_eq_not w.sgn b).resolve_left fun h =>
          hne (by rw [val_eq_signed, hval, h, hm])
        have hu : magUnits (roundMag p q) ≠ 0 := fun h => hne (by rw [val_eq_signed, hval, hm, h, signed_zero, signed_zero])
        rw [val_eq_signed, hs, hm, mul_signed, natAbs_signed_sub_not] at htie
        rw [eq_zero_of_dist_eq_add (Nat.mul_ne_zero hq.ne' hu) htie, roundMag_zero hq]
      · have hge := dist_roundMag_le hq (hfin hz) w.mag
        exact roundMag_even_of_tie hq (hfin hz) hm (Nat.le_antisymm hge (htie ▸ hle w)) }

/-! ## The operations and the literals are correctly rounded -/

theorem add_roundsTo {x y : F64} (hx : x.isFinite = true) (hy : y.isFinite = true) :
    RoundsTo (x.val + y.val) 1 (x.add y) := by
  by_cases h : x.val + y.val = 0
  · have := roundsTo_pack Nat.one_pos (x.sgn && y.sgn) 0
    rwa [signed_zero, roundMag_zero Nat.one_pos, ← h, ← add_of_eq hx hy h] at this
  · have := roundsTo_pack Nat.one_pos (decide (x.val + y.val < 0)) (x.val + y.val).natAbs
    rwa [signed_natAbs, ← roundInt, ← add_of_ne hx hy h] at this

theorem sub_eq_add_neg (x y : F64) : x.sub y = x.add y.neg := by unfold sub; rfl

theorem sub_roundsTo {x y : F64} (hx : x.isFinite = true) (hy : y.isFinite = true) :
    RoundsTo (x.val - y.val) 1 (x.sub y) := by
  have := add_roundsTo hx (y := y.neg) (by rwa [isFinite_neg])
  rwa [val_neg, ← Int.sub_eq_add_neg, ← sub_eq_add_neg] at this

theorem mul_roundsTo {x y : F64} (hx : x.isFinite = true) (hy : y.isFinite = true) :
    RoundsTo (x.val * y.val) unitScale (x.mul y) := by
  rw [val_eq_signed x, val_eq_signed y, signed_mul_signed, mul_finite hx hy]
  exact roundsTo_pack unitScale_pos _ _

theorem div_roundsTo {x y : F64} (hx : x.isFinite = true) (hy : y.isFinite = true) (h : y.val ≠ 0) :
    RoundsTo (x.val * unitScale * y.val.sign) y.val.natAbs (x.div y) := by
  have hu : magUnits y.mag ≠ 0 := by rwa [← natAbs_val, ne_eq, Int.natAbs_eq_zero]
  have hm : y.mag ≠ 0 := (magUnits_pos.mp (Nat.pos_of_ne_zero hu)).ne'
  have hnum : x.val * unitScale * y.val.sign = signed (x.sgn != y.sgn) (magUnits x.mag * unitScale) := by
    rw [val_eq_signed y, sign_signed hu, val_eq_signed x, Int.mul_comm (signed _ _), mul_signed, signed_mul_signed,
      Nat.mul_one, Nat.mul_comm]
  rw [hnum, natAbs_val, div_finite hx hy hm]
  exact roundsTo_pack (Nat.pos_of_ne_zero hu) _ _

theorem ofRatio_roundsTo {q : Nat} (hq : 0 < q) (p : Nat) : RoundsTo (p * unitScale) q (ofRatio p q) := by
  unfold ofRatio
  exact_mod_cast roundsTo_pack hq false (p * unitScale)

/-! ## The floor of a finite value is a binary64 number -/

theorem unitScale_eq : unitScale = 2 ^ 1074 := by decide +kernel

/-- A real(k) that binary64 can hold is exact. -/
theorem ofInt_of_code {k : Int} {c : Nat} (hc : c < infMag) (h : magUnits c = k.natAbs * unitScale) :
    (ofInt k).isFinite = true ∧ (ofInt k).val = k * unitScale := by
  have hc' : c < 2 ^ 63 := hc.trans infMag_lt
  have hr : roundMag (k.natAbs * unitScale) 1 = c := by
    rw [← h]; simpa using roundMag_exact Nat.one_pos hc.le
  unfold ofInt
  rw [hr, isFinite_pack hc', val_pack_signed hc', h, Nat.mul_comm, ← mul_signed, signed_natAbs, Int.mul_comm]
  exact ⟨decide_eq_true hc, rfl⟩

/-- A significand below 2^53 with an exponent that does not reach infinity is a finite binary64 number. -/
theorem exists_finite_code {n k : Nat} (hn : n < 2 ^ 53) (hk : k < 2045) : ∃ c, c < infMag ∧ magUnits c = n * 2 ^ k := by
  obtain ⟨c, hc⟩ := exists_code k hn
  refine ⟨c, ?_, hc⟩
  have hlt : magUnits c < magUnits (k * 2 ^ 52 + 2 ^ 53) := by
    rw [hc, magUnits_shift le_rfl (.inr (by norm_num))]
    exact Nat.mul_lt_mul_of_pos_right hn (Nat.two_pow_pos k)
  have := magUnits_lt_iff.mp hlt
  simp only [infMag]
  omega

/-- The floor of a finite value is a finite binary64 number: from 2^53 on the value is whole, below it so small a whole number
is. -/
theorem exists_code_floorInt {x : F64} (hx : x.isFinite = true) :
    ∃ c, c < infMag ∧ magUnits c = x.floorInt.natAbs * unitScale := by
  obtain ⟨e, m, he, hm, hs⟩ := magUnits_cases x.mag
  have hmag : magUnits x.mag = m * 2 ^ e := by rw [he, magUnits_shift hm.le hs]
  have hu : (0 : Int) < unitScale := by exact_mod_cast unitScale_pos
  rcases Nat.lt_or_ge e 1074 with hlt | hge
  · have hle : x.val.natAbs ≤ m * unitScale := by
      rw [natAbs_val, hmag, unitScale_eq]
      gcongr
      exact one_le_two
    have hlo : -(m : Int) ≤ x.floorInt := Int.le_ediv_of_mul_le hu (by zify at hle; linarith [neg_abs_le x.val])
    have hhi : x.floorInt ≤ m := Int.ediv_le_of_le_mul hu (by zify at hle; exact (le_abs_self _).trans hle)
    rw [unitScale_eq]
    exact exists_finite_code (by omega) (by norm_num)
  · have hdvd : (unitScale : Int) ∣ x.val := by
      rw [Int.natCast_dvd, natAbs_val, hmag, unitScale_eq]
      exact dvd_mul_of_dvd_right (pow_dvd_pow 2 hge) m
    refine ⟨x.mag, isFinite_iff.mp hx, ?_⟩
    have hmul : x.floorInt * unitScale = x.val := Int.ediv_mul_cancel hdvd
    rw [← natAbs_val, ← hmul, Int.natAbs_mul, Int.natAbs_natCast]

/-- The floor of a finite value is finite, and its value is the greatest whole number not above it. -/
theorem floor_finite_val {x : F64} (hx : x.isFinite = true) :
    x.floor.isFinite = true ∧ x.floor.val = x.floorInt * unitScale := by
  rw [floor_of_finite hx]
  split
  case isTrue h => rw [isFinite_pack (by norm_num), val_pack_signed (by norm_num), h]; simp [infMag]
  case isFalse =>
    obtain ⟨c, hc, h⟩ := exists_code_floorInt hx
    exact ofInt_of_code hc h

end Sys2Proof.F64

/-! ## The obligations of 00_scope.md -/

namespace Sys2Proof.Machine

/-- Settles O8: each operation packs a sign with a rounded magnitude. -/
theorem arithmeticIsCorrectlyRounded : Obligations.ArithmeticIsCorrectlyRounded :=
  fun _ _ hx hy => ⟨F64.add_roundsTo hx hy, F64.sub_roundsTo hx hy, F64.mul_roundsTo hx hy, F64.div_roundsTo hx hy⟩

/-- Settles O9: a literal packs a rounded magnitude; the two facts about π are evaluated. -/
theorem literalsAreNearest : Obligations.LiteralsAreNearest :=
  ⟨fun p _ hq => F64.ofRatio_roundsTo hq p, by decide +kernel, by decide +kernel⟩

/-- Settles O10: the floor of a finite value is the floor of the ratio of its value to the units of 1, exactly. -/
theorem floorIsExact : Obligations.FloorIsExact := by
  intro x hx
  obtain ⟨hfin, hval⟩ := F64.floor_finite_val hx
  have hu : (0 : Int) < F64.unitScale := by exact_mod_cast F64.unitScale_pos
  refine ⟨hfin, ?_, ?_, ?_⟩
  · rw [hval]
    exact Int.dvd_mul_left _ _
  · rw [hval]
    exact Int.ediv_mul_le _ hu.ne'
  · rw [hval]
    exact (Int.lt_ediv_add_one_mul_self x.val hu).trans_eq (add_one_mul ..)

end Sys2Proof.Machine
end

section
/-! PROOFS. Bounds of the arithmetic that the state needs (00_scope.md R7; 40_primitives.md R102 to R107; 41_generators.md R133,
R134, R137): a correctly rounded result stays between representable bounds, a clamped frequency is at most half the sample
rate, every increment is in [0, 1), and so is an advanced phase. -/

namespace Sys2Proof.F64

/-! ## Comparisons, without finiteness -/

theorem val_lt_of_lt {x y : F64} (h : x.lt y = true) : x.val < y.val := by
  simp only [lt, Bool.and_eq_true, decide_eq_true_eq] at h
  exact h.2

theorem val_le_of_le {x y : F64} (h : x.le y = true) : x.val ≤ y.val := by
  simp only [le, Bool.and_eq_true, decide_eq_true_eq] at h
  exact h.2

theorem val_le_of_not_lt {x y : F64} (hx : x.isNaN = false) (hy : y.isNaN = false) (h : x.lt y = false) :
    y.val ≤ x.val := by
  simpa [lt, hx, hy] using h

theorem val_lt_of_not_le {x y : F64} (hx : x.isNaN = false) (hy : y.isNaN = false) (h : x.le y = false) :
    y.val < x.val := by
  simpa [le, hx, hy] using h

@[simp] theorem zero_val : zero.val = 0 := by decide +kernel

@[simp] theorem one_val : one.val = unitScale := by decide +kernel

theorem zero_isFinite : zero.isFinite = true := by decide +kernel

theorem one_isFinite : one.isFinite = true := by decide +kernel

/-- A datum no larger than a finite one is finite. -/
theorem isFinite_of_natAbs_val_le {x w : F64} (hw : w.isFinite = true) (h : x.val.natAbs ≤ w.val.natAbs) :
    x.isFinite = true := by
  rw [natAbs_val, natAbs_val, magUnits_le_iff] at h
  exact isFinite_iff.mpr (h.trans_lt (isFinite_iff.mp hw))

/-- Below the value of the next code there is none above that of this one. -/
theorem val_le_magUnits_of_lt_succ {x : F64} {c : Nat} (h : x.val < magUnits (c + 1)) : x.val ≤ magUnits c := by
  rw [val_eq_signed] at *
  cases hs : x.sgn
  · rw [hs, signed_false, Nat.cast_lt, magUnits_lt_iff] at h
    rw [signed_false, Nat.cast_le, magUnits_le_iff]
    omega
  · rw [signed_true]
    omega

/-! ## Bounds of a correctly rounded result -/

section
variable {num : Int} {d : Nat} {z lo hi : F64}

/-- A rounded ratio is finite where the ratio is no larger than a finite value. -/
theorem RoundsTo.isFinite (h : RoundsTo num d z) (hd : 0 < d) {w : F64} (hw : w.isFinite = true)
    (hle : num.natAbs ≤ d * w.val.natAbs) : z.isFinite = true := by
  by_contra hz
  have hover := h.overflow.mp (by simpa using hz)
  have hm := isFinite_iff.mp hw
  have hmax : magUnits w.mag ≤ magUnits (infMag - 1) := magUnits_le_iff.mpr (by omega)
  have hinf : magUnits w.mag < magUnits infMag := magUnits_lt_iff.mpr hm
  rw [natAbs_val] at hle
  have := Nat.mul_lt_mul_of_pos_left (Nat.add_lt_add_of_le_of_lt hmax hinf) hd
  rw [Nat.mul_add] at this
  omega

/-- Rounding does not pass a representable upper bound. -/
theorem RoundsTo.val_le (h : RoundsTo num d z) (hd : 0 < d) (hz : z.isFinite = true) (hhi : hi.isFinite = true)
    (hle : num ≤ d * hi.val) : z.val ≤ hi.val := by
  by_contra hlt
  have hmul : (d : Int) * hi.val < d * z.val := Int.mul_lt_mul_of_pos_left (by omega) (by omega)
  have := h.nearest hz hi hhi
  omega

/-- Rounding does not pass a representable lower bound. -/
theorem RoundsTo.le_val (h : RoundsTo num d z) (hd : 0 < d) (hz : z.isFinite = true) (hlo : lo.isFinite = true)
    (hle : d * lo.val ≤ num) : lo.val ≤ z.val := by
  by_contra hlt
  have hmul : (d : Int) * z.val < d * lo.val := Int.mul_lt_mul_of_pos_left (by omega) (by omega)
  have := h.nearest hz lo hlo
  omega

/-- A ratio nearer to `lo` than to the greater `hi` rounds to below `hi`. -/
theorem RoundsTo.val_lt (h : RoundsTo num d z) (hd : 0 < d) (hz : z.isFinite = true) (hlo : lo.isFinite = true)
    (hlt : lo.val < hi.val) (hmid : 2 * num < d * (lo.val + hi.val)) : z.val < hi.val := by
  by_contra hge
  have h1 : (d : Int) * lo.val < d * hi.val := Int.mul_lt_mul_of_pos_left hlt (by omega)
  have h2 : (d : Int) * hi.val ≤ d * z.val := Int.mul_le_mul_of_nonneg_left (by omega) (by omega)
  have := h.nearest hz lo hlo
  rw [Int.mul_add] at hmid
  omega

end

/-! ## Closed intervals of finite values -/

/-- x is finite and its value lies in [lo, hi]. -/
structure Between (lo hi x : F64) : Prop where
  finite : x.isFinite = true
  le : lo.val ≤ x.val
  ge : x.val ≤ hi.val

theorem RoundsTo.between {num : Int} {d : Nat} {z lo hi : F64} (h : RoundsTo num d z) (hd : 0 < d)
    (hlo : lo.isFinite = true) (hhi : hi.isFinite = true) (hle : d * lo.val ≤ num) (hge : num ≤ d * hi.val) :
    Between lo hi z := by
  have hfin : z.isFinite = true := by
    rcases Int.le_total 0 num with hn | hn
    · refine h.isFinite hd hhi ?_
      zify
      rw [abs_of_nonneg hn]
      exact hge.trans (Int.mul_le_mul_of_nonneg_left (le_abs_self _) (by omega))
    · refine h.isFinite hd hlo ?_
      zify
      rw [abs_of_nonpos hn]
      nlinarith [neg_abs_le lo.val]
  exact ⟨hfin, h.le_val hd hfin hlo hle, h.val_le hd hfin hhi hge⟩

theorem unitScale_pos_int : (0 : Int) < unitScale := by exact_mod_cast unitScale_pos

theorem Between.add {a b c d lo hi x y : F64} (hx : Between a b x) (hy : Between c d y) (hlo : lo.isFinite = true)
    (hhi : hi.isFinite = true) (hle : lo.val ≤ a.val + c.val) (hge : b.val + d.val ≤ hi.val) :
    Between lo hi (x.add y) := by
  obtain ⟨hxf, hxl, hxg⟩ := hx
  obtain ⟨hyf, hyl, hyg⟩ := hy
  exact (add_roundsTo hxf hyf).between Nat.one_pos hlo hhi (by omega) (by omega)

/-- The product of values that are not negative. -/
theorem Between.mul {a b hi x y : F64} (hx : Between zero a x) (hy : Between zero b y) (hhi : hi.isFinite = true)
    (hge : a.val * b.val ≤ unitScale * hi.val) : Between zero hi (x.mul y) := by
  obtain ⟨hxf, hxl, hxg⟩ := hx
  obtain ⟨hyf, hyl, hyg⟩ := hy
  rw [zero_val] at hxl hyl
  refine (mul_roundsTo hxf hyf).between unitScale_pos zero_isFinite hhi ?_ ?_
  · rw [zero_val, Int.mul_zero]
    exact Int.mul_nonneg hxl hyl
  · exact (Int.mul_le_mul hxg hyg hyl (hxl.trans hxg)).trans hge

/-! ## The unit interval -/

/-- The greatest binary64 number below 1. -/
def belowOne : F64 := ⟨0x3FEFFFFFFFFFFFFF#64⟩

/-- The greatest binary64 number below 2. -/
def belowTwo : F64 := ⟨0x3FFFFFFFFFFFFFFF#64⟩

theorem belowOne_isFinite : belowOne.isFinite = true := by decide +kernel

theorem belowTwo_isFinite : belowTwo.isFinite = true := by decide +kernel

theorem belowOne_lt_one : belowOne.val < unitScale := by decide +kernel

theorem val_le_belowOne {x : F64} (h : x.val < unitScale) : x.val ≤ belowOne.val := by
  rw [show (unitScale : Int) = magUnits (belowOne.mag + 1) by decide +kernel] at h
  exact val_le_magUnits_of_lt_succ h

theorem inUnit_iff {x : F64} : x.inUnit = true ↔ Between zero belowOne x := by
  unfold inUnit
  rw [Bool.and_eq_true, Bool.and_eq_true]
  constructor
  · rintro ⟨⟨hf, hl⟩, hg⟩
    exact ⟨hf, val_le_of_le hl, val_le_belowOne (by simpa using val_lt_of_lt hg)⟩
  · rintro ⟨hf, hl, hg⟩
    refine ⟨⟨hf, (le_iff zero_isFinite hf).mpr hl⟩, (lt_iff hf one_isFinite).mpr ?_⟩
    rw [one_val]
    exact hg.trans_lt belowOne_lt_one

theorem zero_inUnit : zero.inUnit = true := by decide +kernel

/-- Two different magnitudes are apart by at least a 2^53rd part of the greater. -/
theorem magUnits_mul_le_of_lt {a b : Nat} (h : a < b) : magUnits a * 2 ^ 53 ≤ magUnits b * (2 ^ 53 - 1) := by
  obtain ⟨c, rfl⟩ : ∃ c, b = c + 1 := ⟨b - 1, by omega⟩
  have hac : magUnits a ≤ magUnits c := magUnits_le_iff.mpr (by omega)
  obtain ⟨k, m, rfl, hm, hk⟩ := magUnits_cases c
  rw [magUnits_succ hm hk]
  rw [magUnits_shift hm.le hk] at hac
  calc magUnits a * 2 ^ 53 ≤ m * 2 ^ k * 2 ^ 53 := Nat.mul_le_mul_right _ hac
    _ = m * 2 ^ 53 * 2 ^ k := by ring
    _ ≤ (m + 1) * (2 ^ 53 - 1) * 2 ^ k := Nat.mul_le_mul_right _ (by omega)
    _ = (m + 1) * 2 ^ k * (2 ^ 53 - 1) := by ring

/-- The quotient of a value that is not negative by a greater one lies in [0, 1). -/
theorem div_inUnit {x y : F64} (hx : x.isFinite = true) (hy : y.isFinite = true) (h0 : 0 ≤ x.val) (h : x.val < y.val) :
    (x.div y).inUnit = true := by
  have hpos : 0 < y.val := h0.trans_lt h
  have hd : 0 < y.val.natAbs := by omega
  have hround := div_roundsTo hx hy hpos.ne'
  have hcast : (y.val.natAbs : Int) = y.val := by omega
  rw [Int.sign_eq_one_of_pos hpos, Int.mul_one] at hround
  have hgap : x.val * 2 ^ 53 ≤ y.val * (2 ^ 53 - 1) := by
    have := magUnits_mul_le_of_lt (a := x.mag) (b := y.mag) (by rw [← magUnits_lt_iff, ← natAbs_val, ← natAbs_val]; omega)
    rw [← natAbs_val, ← natAbs_val] at this
    omega
  have hone : belowOne.val * 2 ^ 53 = unitScale * (2 ^ 53 - 1) := by decide +kernel
  refine inUnit_iff.mpr (hround.between hd zero_isFinite belowOne_isFinite ?_ ?_)
  · rw [zero_val, Int.mul_zero]
    exact Int.mul_nonneg h0 unitScale_pos_int.le
  · rw [hcast]
    nlinarith [unitScale_pos_int]

/-! ## max, min and clamp -/

theorem max_spec {x y : F64} (hx : x.isFinite = true) (hy : y.isFinite = true) :
    (x.max y).isFinite = true ∧ (x.max y).val = Max.max x.val y.val := by
  unfold max
  simp only [lt_iff hx hy, lt_iff hy hx]
  split_ifs <;> exact ⟨‹_›, by omega⟩

theorem min_spec {x y : F64} (hx : x.isFinite = true) (hy : y.isFinite = true) :
    (x.min y).isFinite = true ∧ (x.min y).val = Min.min x.val y.val := by
  unfold min
  simp only [lt_iff hx hy, lt_iff hy hx]
  split_ifs <;> exact ⟨‹_›, by omega⟩

theorem clamp_between {x lo hi : F64} (hx : x.isFinite = true) (hlo : lo.isFinite = true) (hhi : hi.isFinite = true)
    (h : lo.val ≤ hi.val) : Between lo hi (x.clamp lo hi) := by
  obtain ⟨hf, hv⟩ := max_spec hx hlo
  obtain ⟨hf', hv'⟩ := min_spec hf hhi
  exact ⟨hf', by unfold clamp; omega, by unfold clamp; omega⟩

/-! ## Below one half -/

/-- Half of a magnitude, rounded down to a code: the magnitude lies between twice that and the sum with the next code. -/
theorem exists_half_code (c : Nat) : ∃ h, 2 * magUnits h ≤ magUnits c ∧ magUnits c ≤ magUnits h + magUnits (h + 1) := by
  obtain ⟨k, m, rfl, hm, hk⟩ := magUnits_cases c
  rw [magUnits_shift hm.le hk]
  cases k with
  | zero =>
    refine ⟨0 * 2 ^ 52 + m / 2, ?_⟩
    rw [magUnits_succ (by omega) (.inl rfl), magUnits_shift (by omega) (.inl rfl)]
    omega
  | succ k =>
    refine ⟨k * 2 ^ 52 + m, ?_⟩
    rw [magUnits_succ hm (by omega), magUnits_shift hm.le (by omega), Nat.add_mul, Nat.pow_succ]
    have := Nat.two_pow_pos k
    constructor <;> nlinarith

/-- A ratio below half of a value rounds to at most half of it, also where that half is not representable. -/
theorem RoundsTo.two_mul_val_le {num : Int} {d : Nat} {z y : F64} (h : RoundsTo num d z) (hd : 0 < d)
    (hy : y.isFinite = true) (h0 : 0 ≤ num) (hlt : 2 * num < d * y.val) :
    z.isFinite = true ∧ 0 ≤ z.val ∧ 2 * z.val ≤ y.val := by
  have hypos : 0 < y.val := (mul_pos_iff_of_pos_left (by omega : (0 : Int) < d)).mp (by omega)
  obtain ⟨hz, hl, -⟩ := h.between (lo := zero) (hi := y) hd zero_isFinite hy (by simpa using h0) (by omega)
  obtain ⟨c, hlo, hhi⟩ := exists_half_code y.mag
  have hyval : y.val = magUnits y.mag := by rw [← natAbs_val]; omega
  have hcy : c < y.mag := magUnits_lt_iff.mp (by omega)
  have hmag := isFinite_iff.mp hy
  have hinf := infMag_lt
  have hval : ∀ a ≤ y.mag, (pack false a).isFinite = true ∧ (pack false a).val = magUnits a := fun a ha =>
    ⟨by rw [isFinite_pack (by omega), decide_eq_true_eq]; omega, val_pack (by omega)⟩
  obtain ⟨hcf, hcv⟩ := hval c hcy.le
  obtain ⟨-, hcv'⟩ := hval (c + 1) hcy
  have hzlt : z.val < magUnits (c + 1) := by
    rw [← hcv']
    refine h.val_lt hd hz hcf ?_ (hlt.trans_le (Int.mul_le_mul_of_nonneg_left ?_ (by omega)))
    · rw [hcv, hcv']
      exact_mod_cast magUnits_lt_succ c
    · rw [hcv, hcv', hyval]
      exact_mod_cast hhi
  have := val_le_magUnits_of_lt_succ hzlt
  rw [zero_val] at hl
  exact ⟨hz, hl, by omega⟩

end Sys2Proof.F64

namespace Sys2Proof.Machine

open F64

/-! ## Operands (40_primitives.md R102 to R105) -/

theorem rateOk_iff {sr : F64} : rateOk sr = true ↔ sr.isFinite = true ∧ 0 < sr.val := by
  unfold rateOk
  rw [Bool.and_eq_true]
  exact and_congr_right fun hf => by rw [lt_iff zero_isFinite hf, zero_val]

theorem clampUnit_between {x : F64} (hx : x.isFinite = true) : Between zero one (clampUnit x) :=
  clamp_between hx zero_isFinite one_isFinite (by decide +kernel)

section
variable {P : Params} {sr : F64} (hsr : rateOk sr = true)
include hsr

/-- The frequency bound 0.45·SR is at most half the sample rate, also where it is rounded to a whole number of units. -/
theorem freqBound_spec :
    (freqBound sr).isFinite = true ∧ 0 ≤ (freqBound sr).val ∧ 2 * (freqBound sr).val ≤ sr.val := by
  obtain ⟨hfin, hpos⟩ := rateOk_iff.mp hsr
  have hshare : freqShare.isFinite = true ∧ 0 ≤ freqShare.val ∧ 2 * freqShare.val < unitScale := by decide +kernel
  exact (mul_roundsTo hshare.1 hfin).two_mul_val_le unitScale_pos hfin (Int.mul_nonneg hshare.2.1 hpos.le) (by nlinarith)

theorem freqFloor_between : Between zero (freqBound sr) (freqFloor P sr) := by
  obtain ⟨hf, h0, -⟩ := freqBound_spec hsr
  rw [← zero_val] at h0
  unfold freqFloor
  split_ifs with h
  · rw [Bool.and_eq_true] at h
    have hl := val_lt_of_lt h.1
    have hg := val_le_of_le h.2
    rw [zero_val] at hl
    exact ⟨isFinite_of_natAbs_val_le hf (by omega), by rw [zero_val]; omega, hg⟩
  · exact ⟨hf, h0, le_rfl⟩

/-- A clamped frequency lies in [0, 0.45·SR], also when an infinity is clamped. -/
theorem clampFreq_between {x : F64} (hx : x.isNaN = false) : Between zero (freqBound sr) (clampFreq P sr x) := by
  obtain ⟨hf, h0, -⟩ := freqBound_spec hsr
  unfold clampFreq
  split_ifs with h1 h2
  · exact ⟨hf, by rwa [zero_val], le_rfl⟩
  · exact freqFloor_between hsr
  · have hg := val_le_of_not_lt (isNaN_of_isFinite hf) hx (by simpa using h1)
    have hl := val_lt_of_not_le hx (isNaN_of_isFinite zero_isFinite) (by simpa using h2)
    rw [zero_val] at hl
    exact ⟨isFinite_of_natAbs_val_le hf (by omega), by rw [zero_val]; omega, hg⟩

/-- The increment of a frequency within the bound. -/
theorem inc_inUnit {f : F64} (hf : Between zero (freqBound sr) f) : (inc sr f).inUnit = true := by
  obtain ⟨hfin, hpos⟩ := rateOk_iff.mp hsr
  obtain ⟨-, -, hhalf⟩ := freqBound_spec hsr
  obtain ⟨hff, hl, hg⟩ := hf
  rw [zero_val] at hl
  exact div_inUnit hff hfin hl (by omega)

end

/-! ## Phases (40_primitives.md R106, R107) -/

/-- An advanced phase stays in [0, 1). -/
theorem advance_inUnit {ph dt : F64} (hph : ph.inUnit = true) (hdt : dt.inUnit = true) : (advance ph dt).inUnit = true := by
  have hsum : Between zero belowTwo (ph.add dt) :=
    (inUnit_iff.mp hph).add (inUnit_iff.mp hdt) zero_isFinite belowTwo_isFinite (by simp) (by decide +kernel)
  obtain ⟨hf, hl, hg⟩ := hsum
  unfold advance
  split_ifs with h
  · have h1 := (le_iff one_isFinite hf).mp h
    have htop : belowTwo.val - one.val ≤ belowOne.val := by decide +kernel
    exact inUnit_iff.mpr ((sub_roundsTo hf one_isFinite).between Nat.one_pos zero_isFinite belowOne_isFinite
      (by rw [zero_val]; omega) (by omega))
  · have h1 := val_lt_of_not_le (isNaN_of_isFinite one_isFinite) (isNaN_of_isFinite hf) (by simpa using h)
    rw [one_val] at h1
    exact inUnit_iff.mpr ⟨hf, hl, val_le_belowOne h1⟩

/-! ## The increments of modes 2 and 3 (41_generators.md R133, R134, R137) -/

theorem spread_between {det : F64} (hdet : Between zero one det) : Between zero (ofRatio 24 1000) (spread det) := by
  have hmul : Between zero spreadRange (det.mul spreadRange) :=
    hdet.mul ⟨by decide +kernel, by decide +kernel, le_rfl⟩ (by decide +kernel) (by rw [one_val])
  exact Between.add (a := spreadBase) (b := spreadBase) ⟨by decide +kernel, le_rfl, le_rfl⟩ hmul zero_isFinite
    (by decide +kernel) (by decide +kernel) (by decide +kernel)

/-- A voice's detune factor 1 + k·spread is not negative and at most 5/4. -/
theorem voiceFactor_between {det : F64} {k : Int} (hdet : Between zero one det) (hlo : -3 ≤ k) (hhi : k ≤ 3) :
    Between zero (ofRatio 5 4) (one.add ((ofInt k).mul (spread det))) := by
  obtain ⟨hf, hl, hg⟩ := spread_between hdet
  have hk : (ofInt k).isFinite = true ∧ (ofInt k).val = k * unitScale := by
    interval_cases k <;> decide +kernel
  have hquarter : (ofRatio 1 4).isFinite = true ∧ 3 * (ofRatio 24 1000).val ≤ (ofRatio 1 4).val := by decide +kernel
  have hprod : Between (ofRatio 1 4).neg (ofRatio 1 4) ((ofInt k).mul (spread det)) := by
    have hU := unitScale_pos_int
    rw [zero_val] at hl
    refine (mul_roundsTo hk.1 hf).between unitScale_pos (by rw [isFinite_neg]; exact hquarter.1) hquarter.1 ?_ ?_
    · rw [hk.2, val_neg]
      have : -(ofRatio 1 4).val ≤ k * (spread det).val := by nlinarith
      nlinarith
    · rw [hk.2]
      have : k * (spread det).val ≤ (ofRatio 1 4).val := by nlinarith
      nlinarith
  exact Between.add (a := one) (b := one) ⟨one_isFinite, le_rfl, le_rfl⟩ hprod zero_isFinite (by decide +kernel)
    (by decide +kernel) (by decide +kernel)

theorem fmRatio_isFinite {tim : F64} (htim : Between zero one tim) : (fmRatio tim).isFinite = true := by
  have hmul : Between zero (ofInt 6) (tim.mul (ofInt 6)) :=
    htim.mul ⟨by decide +kernel, by decide +kernel, le_rfl⟩ (by decide +kernel) (by rw [one_val])
  exact (Between.add (a := half) (b := half) (lo := zero) (hi := ofInt 7) ⟨by decide +kernel, le_rfl, le_rfl⟩ hmul
    zero_isFinite (by decide +kernel) (by decide +kernel) (by decide +kernel)).finite

section
variable {P : Params} {sr f : F64} (hsr : rateOk sr = true) (hf : Between zero (freqBound sr) f)
include hsr hf

/-- The modulator's increment; the frequency before its clamp may be an infinity. -/
theorem fmInc_inUnit {tim : F64} (htim : Between zero one tim) : (fmInc P sr f tim).inUnit = true :=
  inc_inUnit hsr (clampFreq_between hsr (mul_roundsTo hf.finite (fmRatio_isFinite htim)).notNaN)

/-- A voice's increment: its frequency is nearer to f than to the sample rate, so it rounds to below the sample rate. -/
theorem voiceInc_inUnit {det : F64} {k : Int} (hdet : Between zero one det) (hlo : -3 ≤ k) (hhi : k ≤ 3) :
    (voiceInc sr f (spread det) k).inUnit = true := by
  obtain ⟨hfin, hpos⟩ := rateOk_iff.mp hsr
  obtain ⟨-, -, hhalf⟩ := freqBound_spec hsr
  obtain ⟨hff, hl, hg⟩ := hf
  obtain ⟨hcf, hcl, hcg⟩ := voiceFactor_between hdet hlo hhi
  have hfive : 4 * (ofRatio 5 4).val = 5 * unitScale := by decide +kernel
  have hU := unitScale_pos_int
  rw [zero_val] at hl hcl
  have hround := mul_roundsTo hff hcf
  rw [← voiceFreq] at hround
  have hprod : 4 * (f.val * (one.add ((ofInt k).mul (spread det))).val) ≤ 5 * (f.val * unitScale) := by nlinarith
  have hsrU : 2 * (f.val * unitScale) ≤ sr.val * unitScale := by nlinarith
  have hsrpos : 0 < sr.val * unitScale := Int.mul_pos hpos hU
  obtain ⟨hvf, hvl, -⟩ := hround.between (lo := zero) (hi := sr) unitScale_pos zero_isFinite hfin
    (by rw [zero_val, Int.mul_zero]; exact Int.mul_nonneg hl hcl) (by linarith)
  rw [zero_val] at hvl
  exact div_inUnit hvf hfin hvl (hround.val_lt unitScale_pos hvf hff (by omega) (by linarith))

end

end Sys2Proof.Machine
end

section
/-! PROOFS. What every step keeps (10_state.md R25, R28 to R32; 60_exceptions.md R225): the phases through the sample step and
the sample loop, FAULT and FINFO through the checks of a RENDER, and the sample rate and INITD through everything but INIT. -/

namespace Sys2Proof

/-! ## The bank of seven -/

@[simp] theorem Seven.get_fill {α : Type} (a : α) (i : Fin 7) : (Seven.fill a).get i = a := by
  fin_cases i <;> rfl

theorem Seven.get_mapStep {α β : Type} (f : Int → α → β) (b : Seven α) (i : Fin 7) :
    (b.mapStep f).get i = f ((i : Int) - 3) (b.get i) := by
  fin_cases i <;> rfl

theorem Seven.get_mem_toList {α : Type} (b : Seven α) (i : Fin 7) : b.get i ∈ b.toList := by
  fin_cases i <;> simp [Seven.get, Seven.toList]

theorem Param.index_ne_seven (p : Param) : p.index ≠ 7 := by cases p <;> decide

namespace Machine

theorem inUnit_of_offsetsOk {off : Seven F64} (h : offsetsOk off = true) (i : Fin 7) : (off.get i).inUnit = true :=
  List.all_eq_true.mp h _ (off.get_mem_toList i)

/-- A sample loop that ends has run its first sample step. -/
theorem renderLoop_succ_eq_next {P : Params} {k : Nat} {pr : Progress} {s t : State}
    (h : renderLoop P (k + 1) pr s = .next t) :
    ∃ u, sampleStep P pr s = some u ∧ renderLoop P k { pr with index := pr.index + 1 } u = .next t := by
  cases hu : sampleStep P pr s with
  | none => simp [renderLoop, hu] at h
  | some u => exact ⟨u, rfl, renderLoop_succ hu ▸ h⟩

/-! ## The phases through a sample step (10_state.md R25) -/

theorem State.PhasesInUnit.of_eq {s t : State} (h : s.PhasesInUnit) (h1 : t.phase = s.phase) (h2 : t.phase2 = s.phase2)
    (h3 : t.ssp = s.ssp) : t.PhasesInUnit :=
  ⟨h1 ▸ h.phase, h2 ▸ h.phase2, h3 ▸ h.ssp⟩

theorem setPhases_phasesInUnit (s : State) {off : Seven F64} (h : ∀ i, (off.get i).inUnit = true) :
    (s.setPhases off).PhasesInUnit :=
  ⟨F64.zero_inUnit, F64.zero_inUnit, h⟩

/-- The parameters of a sample step that are clamped to [0, 1] come from finite values. -/
theorem isFinite_of_resolveAll {src : Sources} {n : Nat} {r : Resolved} (h : resolveAll src n = some r) :
    r.freq.isFinite = true ∧ r.detune.isFinite = true ∧ r.timbre.isFinite = true := by
  obtain ⟨-, hfreq, -, -, hdet, -, htim⟩ := resolveAll_eq_some.mp h
  exact ⟨(resolveFinite_eq_some.mp hfreq).2, (resolveFinite_eq_some.mp hdet).2, (resolveFinite_eq_some.mp htim).2⟩

/-- A sample step advances each phase register by an increment of its mode, or leaves it. -/
theorem sampleStep_phases {P : Params} {pr : Progress} {s t : State} (h : sampleStep P pr s = some t) :
    ∃ r, resolveAll pr.src pr.index = some r ∧
      t.phase = advance s.phase (inc s.sr (clampFreq P s.sr r.freq)) ∧
      (t.phase2 = s.phase2 ∨
        t.phase2 = advance s.phase2 (fmInc P s.sr (clampFreq P s.sr r.freq) (clampUnit r.timbre))) ∧
      (t.ssp = s.ssp ∨ t.ssp = voiceAdvance s.sr (clampFreq P s.sr r.freq) (clampUnit r.detune) s.ssp) := by
  obtain ⟨r, hr, rfl⟩ := sampleStep_eq_some.mp h
  obtain ⟨x, hg⟩ := generate_frame P (modeCode r.mode) (openSample P s r)
  rw [hg]
  exact ⟨r, hr, rfl, (ite_eq_or_eq ..).symm, (ite_eq_or_eq ..).symm⟩

section
variable {P : Params} {s t : State} (hrate : rateOk s.sr = true)
include hrate

/-- One sample step keeps the phases in [0, 1). -/
theorem sampleStep_phasesInUnit {pr : Progress} (hs : s.PhasesInUnit) (h : sampleStep P pr s = some t) :
    t.PhasesInUnit := by
  obtain ⟨r, hr, hphase, hphase2, hssp⟩ := sampleStep_phases h
  obtain ⟨hfreq, hdet, htim⟩ := isFinite_of_resolveAll hr
  have hf := clampFreq_between (P := P) hrate (F64.isNaN_of_isFinite hfreq)
  refine ⟨hphase ▸ advance_inUnit hs.phase (inc_inUnit hrate hf), ?_, fun i => ?_⟩
  · rcases hphase2 with heq | heq
    · exact heq ▸ hs.phase2
    · exact heq ▸ advance_inUnit hs.phase2 (fmInc_inUnit hrate hf (clampUnit_between htim))
  · rcases hssp with heq | heq
    · exact heq ▸ hs.ssp i
    · rw [heq, voiceAdvance, Seven.get_mapStep]
      exact advance_inUnit (hs.ssp i) (voiceInc_inUnit hrate hf (clampUnit_between hdet) (by omega) (by omega))

/-- The sample loop keeps the phases in [0, 1) and the output block in canonical form. -/
theorem renderLoop_phasesInUnit_wf {k : Nat} {pr : Progress} (hs : s.PhasesInUnit) (hout : s.out.wf = true)
    (h : renderLoop P k pr s = .next t) : t.PhasesInUnit ∧ t.out.wf = true := by
  induction k generalizing pr s with
  | zero =>
    rw [renderLoop_zero, Host.Outcome.next.injEq] at h
    subst h
    exact ⟨hs.of_eq rfl rfl rfl, hout⟩
  | succ k ih =>
    obtain ⟨u, hu, hloop⟩ := renderLoop_succ_eq_next h
    have hframe := sampleStep_frame hu
    obtain ⟨v, hv⟩ := hframe.out
    exact ih (hframe.sr ▸ hrate) (sampleStep_phasesInUnit hrate hs hu) (hv ▸ Memory.write_wf _ v hout) hloop

end

/-! ## FAULT and FINFO (60_exceptions.md R225) -/

theorem State.FaultInfoOk.of_eq {s t : State} (h : s.FaultInfoOk) (hfault : t.fault = s.fault)
    (hfinfo : t.finfo = s.finfo) (hnmax : t.nmax = s.nmax) : t.FaultInfoOk := by
  unfold FaultInfoOk at *
  rwa [hfault, hfinfo, hnmax]

/-- The sample a non-finite value is reported in lies in the block. -/
theorem firstNonFinite_lt {src : Sources} {n k : Nat} {p : Param} (h : firstNonFinite src n = some (p, k)) : k < n := by
  induction n with
  | zero => simp [firstNonFinite] at h
  | succ n ih =>
    rw [firstNonFinite, Option.or_eq_some_iff] at h
    rcases h with h | ⟨-, h⟩
    · exact Nat.lt_succ_of_lt (ih h)
    · obtain ⟨q, -, hq⟩ := Option.map_eq_some_iff.mp h
      rw [← (Prod.mk.inj hq).2]
      exact Nat.lt_succ_self n

/-! ## The invariant -/

namespace State.Inv

variable {s t : State}

/-- A state with nothing in progress keeps the invariant while the record stays. -/
theorem of_sameRecord (h : s.Inv) (hrec : s.SameRecord t) (hout : t.out.wf = true) (hrend : t.rend = none)
    (hsmp : t.smp = .idle) : t.Inv where
  rate hi := hrec.sr ▸ h.rate (hrec.initd.trans hi)
  phases hi := (h.phases (hrec.initd.trans hi)).of_eq hrec.phase.symm hrec.phase2.symm hrec.ssp.symm
  out := hout
  info := h.info.of_eq hrec.fault.symm hrec.finfo.symm hrec.nmax.symm
  render _ hpr := by rw [hrend] at hpr; cases hpr
  locals := hsmp
  nmax := hrec.nmax ▸ h.nmax

theorem respond (h : s.Inv) (hrend : s.rend = none) (st : Status) (ka : Option Bool) : (s.respond st ka).Inv :=
  h.of_sameRecord ⟨rfl, rfl, rfl, rfl, rfl, rfl, rfl, rfl, rfl, rfl⟩ h.out hrend h.locals

/-- A fault leaves the invariant as it was wherever FINFO is what its cause records. -/
theorem raiseFault (h : s.Inv) (hrend : s.rend = none) {code : FaultCode} {p : Fin 8} {k : Nat}
    (hinfo : (s.raiseFault code p k).FaultInfoOk) : (s.raiseFault code p k).Inv where
  rate := h.rate
  phases hi := (h.phases hi).of_eq rfl rfl rfl
  out := h.out
  info := hinfo
  render _ hpr := by rw [raiseFault_rend, hrend] at hpr; cases hpr
  locals := h.locals
  nmax := h.nmax

theorem writeSilence (h : s.Inv) (hrend : s.rend = none) (n : Nat) : (s.writeSilence n).Inv := by
  have hwf := s.writeSilence_wf n h.out
  rw [s.writeSilence_eq n]
  exact h.of_sameRecord ⟨rfl, rfl, rfl, rfl, rfl, rfl, rfl, rfl, rfl, rfl⟩ hwf hrend h.locals

theorem setPhases (h : s.Inv) (hrend : s.rend = none) {off : Seven F64} (hoff : ∀ i, (off.get i).inUnit = true) :
    (s.setPhases off).Inv where
  rate := h.rate
  phases _ := setPhases_phasesInUnit s hoff
  out := h.out
  info := h.info
  render _ hpr := by rw [setPhases_rend, hrend] at hpr; cases hpr
  locals := h.locals
  nmax := h.nmax

theorem createVoice (h : s.Inv) (hrend : s.rend = none) {rate : F64} {off : Seven F64} (hrate : rateOk rate = true)
    (hoff : offsetsOk off = true) : (createVoice s rate off).Inv where
  rate _ := hrate
  phases _ := (setPhases_phasesInUnit s (inUnit_of_offsetsOk hoff)).of_eq rfl rfl rfl
  out := h.out
  info := h.info
  render _ hpr := by rw [createVoice_rend, hrend] at hpr; cases hpr
  locals := h.locals
  nmax := h.nmax

theorem unlessFaulted (h : s.Inv) (hrend : s.rend = none) {ka : Option Bool} {body : State} (hbody : body.Inv) :
    (s.unlessFaulted ka body).Inv := by
  by_cases hf : s.fault = .noFault
  · rwa [unlessFaulted_ok hf]
  · rw [unlessFaulted_faulted hf]
    exact h.respond hrend _ _

theorem initBody (h : s.Inv) (hrend : s.rend = none) (rate : F64) (off : Seven F64) : (initBody s rate off).Inv := by
  unfold Machine.initBody
  split_ifs with hok
  · rw [Bool.and_eq_true] at hok
    exact (h.createVoice hrend hok.1 hok.2).respond hrend _ _
  · exact h.respond hrend _ _

theorem resetBody (h : s.Inv) (hrend : s.rend = none) : (resetBody s).Inv := by
  unfold Machine.resetBody
  split_ifs
  · exact (h.setPhases hrend fun i => by rw [Seven.get_fill]; exact F64.zero_inUnit).respond hrend _ _
  · exact h.respond hrend _ _

/-- A sample loop run on an initialised core that meets the invariant. -/
theorem renderLoop {P : Params} {k n : Nat} {pr : Progress} {src : Sources} (h : s.Inv) (hi : s.initd = true)
    (hloop : renderLoop P k pr (beginRender s n src) = .next t) : t.Inv := by
  obtain ⟨hph, hwf⟩ := renderLoop_phasesInUnit_wf (s := beginRender s n src) (h.rate hi)
    ((h.phases hi).of_eq rfl rfl rfl) h.out hloop
  obtain ⟨hsr, hinitd, hfault, hfinfo, -, hnmax, hrend, hsmp, -⟩ := renderLoop_frame hloop
  exact {
    rate := fun _ => hsr ▸ h.rate hi
    phases := fun _ => hph
    out := hwf
    info := h.info.of_eq hfault hfinfo hnmax
    render := fun _ hpr => by rw [hrend] at hpr; cases hpr
    locals := hsmp
    nmax := hnmax ▸ h.nmax }

theorem renderWith {P : Params} {n : Nat} {src : Sources} (h : s.Inv) (hrend : s.rend = none)
    (hnext : renderWith P n src s = .next t) : t.Inv := by
  rcases renderWith_cases hnext with ⟨-, rfl⟩ | ⟨-, -, rfl⟩ | ⟨-, -, -, rfl⟩ | ⟨-, -, -, p, -, rfl⟩ |
    ⟨-, hn, -, -, p, k, hk, rfl⟩ | ⟨-, -, hi, -, -, hloop⟩
  · exact h.respond hrend _ _
  · exact h.raiseFault hrend rfl
  · exact (h.writeSilence hrend n).respond (by rw [s.writeSilence_eq n]; exact hrend) _ _
  · exact h.raiseFault hrend ⟨p.index_ne_seven, rfl⟩
  · exact h.raiseFault hrend ⟨p.index_ne_seven, (firstNonFinite_lt hk).trans_le hn⟩
  · exact h.renderLoop hi hloop

/-- Every command keeps the invariant. -/
theorem exec_command {c : Command} {i : Instr} (h : s.Inv) (hrend : s.rend = none) (hdec : decodeCommand c = .ok i)
    (hnext : exec i s = .next t) : t.Inv := by
  rcases decodeCommand_cases hdec with ⟨rate, off, rfl⟩ | ⟨n, src, rfl⟩ | rfl | rfl
  · rw [exec_init, Host.Outcome.next.injEq] at hnext
    exact hnext ▸ h.unlessFaulted hrend (h.initBody hrend rate off)
  · rw [exec_render] at hnext
    exact h.renderWith hrend hnext
  · rw [exec_reset, Host.Outcome.next.injEq] at hnext
    exact hnext ▸ h.unlessFaulted hrend (h.resetBody hrend)
  · rw [exec_unrecognised, Host.Outcome.next.injEq] at hnext
    exact hnext ▸ h.unlessFaulted hrend (h.respond hrend _ _)

/-- A sample step keeps the invariant while samples remain, and where it ends its RENDER. -/
theorem stepSample {P : Params} {pr : Progress} {u : State} (h : s.Inv) (hrend : s.rend = some pr)
    (hu : sampleStep P pr s = some u) : State.Inv (if pr.index + 1 < pr.len then u else finishRender u) := by
  obtain ⟨hinitd, hfault, -, hlen, harrays, hvalues⟩ := h.render pr hrend
  have hf := sampleStep_frame hu
  obtain ⟨v, hv⟩ := hf.out
  have hrate := h.rate hinitd
  have hph := sampleStep_phasesInUnit hrate (h.phases hinitd) hu
  have hwf : u.out.wf = true := hv ▸ Memory.write_wf _ v h.out
  have hinfo : u.FaultInfoOk := h.info.of_eq hf.fault hf.finfo hf.nmax
  split_ifs with hlt
  · exact {
      rate := fun _ => hf.sr ▸ hrate
      phases := fun _ => hph
      out := hwf
      info := hinfo
      render := fun q hq => by
        rw [hf.rend, Option.some.injEq] at hq
        subst hq
        exact ⟨hf.initd.trans hinitd, hf.fault.trans hfault, hlt, hf.nmax ▸ hlen, harrays, hvalues⟩
      locals := hf.smp
      nmax := hf.nmax ▸ h.nmax }
  · exact {
      rate := fun _ => hf.sr ▸ hrate
      phases := fun _ => hph.of_eq rfl rfl rfl
      out := hwf
      info := hinfo
      render := fun _ hq => by rw [finishRender_rend] at hq; cases hq
      locals := rfl
      nmax := hf.nmax ▸ h.nmax }

end State.Inv

/-- Settles O54: a sample step keeps the phases by their increments, and a command runs with nothing in progress. -/
theorem everyStepKeepsTheInvariant : Obligations.EveryStepKeepsTheInvariant := by
  intro s t hs h
  rcases step_cases h with ⟨pr, u, hpr, hu, rfl⟩ | ⟨-, -, rfl⟩ | ⟨c, rest, i, hrend, -, hdec, hexec⟩
  · exact hs.stepSample hpr hu
  · exact hs
  · have hrest : State.Inv { s with cmds := rest } :=
      hs.of_sameRecord ⟨rfl, rfl, rfl, rfl, rfl, rfl, rfl, rfl, rfl, rfl⟩ hs.out hrend hs.locals
    exact hrest.exec_command hrend hdec hexec

/-- Settles O53: the power-on state is not initialised, not faulted, and has nothing in progress. -/
theorem powerOnStateIsSafe : Obligations.PowerOnStateIsSafe where
  rate h := by cases h
  phases h := by cases h
  out := rfl
  info := rfl
  render _ h := by cases h
  locals := rfl
  nmax := Nat.le_add_left 1 _

/-! ## The sample rate and INITD (10_state.md R28, R29) -/

/-- SR, INITD and NMAX are what they were. -/
structure SameControl (s t : State) : Prop where
  sr : t.sr = s.sr
  initd : t.initd = s.initd
  nmax : t.nmax = s.nmax

theorem SameControl.unlessFaulted {s body : State} (h : SameControl s body) (ka : Option Bool) :
    SameControl s (s.unlessFaulted ka body) := by
  by_cases hf : s.fault = .noFault
  · rwa [State.unlessFaulted_ok hf]
  · rw [State.unlessFaulted_faulted hf]
    exact ⟨rfl, rfl, rfl⟩

theorem sampleStep_sameControl {P : Params} {pr : Progress} {s u : State} (h : sampleStep P pr s = some u) :
    SameControl s (if pr.index + 1 < pr.len then u else finishRender u) := by
  have hf := sampleStep_frame h
  split_ifs
  · exact ⟨hf.sr, hf.initd, hf.nmax⟩
  · exact ⟨hf.sr, hf.initd, hf.nmax⟩

theorem renderWith_sameControl {P : Params} {n : Nat} {src : Sources} {s t : State} (h : renderWith P n src s = .next t) :
    SameControl s t := by
  rcases renderWith_cases h with ⟨-, rfl⟩ | ⟨-, -, rfl⟩ | ⟨-, -, -, rfl⟩ | ⟨-, -, -, p, -, rfl⟩ |
    ⟨-, -, -, -, p, k, -, rfl⟩ | ⟨-, -, -, -, -, hloop⟩
  · exact ⟨rfl, rfl, rfl⟩
  · exact ⟨rfl, rfl, rfl⟩
  · rw [s.writeSilence_eq n]
    exact ⟨rfl, rfl, rfl⟩
  · exact ⟨rfl, rfl, rfl⟩
  · exact ⟨rfl, rfl, rfl⟩
  · obtain ⟨hsr, hinitd, -, -, -, hnmax, -⟩ := renderLoop_frame hloop
    exact ⟨hsr, hinitd, hnmax⟩

theorem resetBody_sameControl (s : State) : SameControl s (resetBody s) := by
  unfold resetBody
  split_ifs <;> exact ⟨rfl, rfl, rfl⟩

/-- INIT leaves SR, INITD and NMAX, or it is a valid one on a core that is not faulted. -/
theorem execInit_cases (s : State) (rate : F64) (off : Seven F64) :
    SameControl s (s.unlessFaulted none (initBody s rate off)) ∨
      (s.fault = .noFault ∧ rateOk rate = true ∧ offsetsOk off = true ∧
        s.unlessFaulted none (initBody s rate off) = (createVoice s rate off).respond .ok none) := by
  by_cases hf : s.fault = .noFault
  · rw [State.unlessFaulted_ok hf, initBody]
    split_ifs with hok
    · rw [Bool.and_eq_true] at hok
      exact .inr ⟨hf, hok.1, hok.2, rfl⟩
    · exact .inl ⟨rfl, rfl, rfl⟩
  · rw [State.unlessFaulted_faulted hf]
    exact .inl ⟨rfl, rfl, rfl⟩

/-- Only the word 1 is INIT's. -/
theorem cmdKind_eq_init {w : CmdWord} (h : cmdKind w = .init) : w = 0x00000001#32 := by
  unfold cmdKind at h
  split_ifs at h with hrsv hop
  rw [not_not] at hrsv
  have h1 := congrArg BitVec.toNat hrsv
  have h2 := congrArg BitVec.toNat hop
  simp only [fieldRsv, fieldOp, BitVec.extractLsb'_toNat, BitVec.toNat_ofNat, Nat.shiftRight_eq_div_pow] at h1 h2
  have := w.isLt
  apply BitVec.eq_of_toNat_eq
  rw [BitVec.toNat_ofNat]
  omega

theorem decodeCommand_eq_init {c : Command} {rate : F64} {off : Seven F64} (h : decodeCommand c = .ok (.init rate off)) :
    c = { word := 0x00000001#32, ops := .init rate off } := by
  obtain ⟨w, ops⟩ := c
  unfold decodeCommand at h
  split at h
  case h_1 hk =>
    cases ops with
    | init r o =>
      cases h
      exact congrArg (Command.mk · _) (cmdKind_eq_init hk)
    | empty => cases h
    | render n src => cases h
  case h_2 => cases ops <;> cases h
  case h_3 => cases ops <;> cases h
  case h_4 => cases h

/-- A step leaves SR, INITD and NMAX, or it runs a valid INIT. -/
theorem step_sameControl_or_init {s t : State} (h : step s = .next t) :
    SameControl s t ∨
      ∃ rate off rest, s.rend = none ∧ s.cmds = { word := 0x00000001#32, ops := .init rate off } :: rest ∧
        s.fault = .noFault ∧ rateOk rate = true ∧ offsetsOk off = true ∧
        t = (createVoice { s with cmds := rest } rate off).respond .ok none := by
  rcases step_cases h with ⟨pr, u, -, hu, rfl⟩ | ⟨-, -, rfl⟩ | ⟨c, rest, i, hrend, hc, hdec, hexec⟩
  · exact .inl (sampleStep_sameControl hu)
  · exact .inl ⟨rfl, rfl, rfl⟩
  · rcases decodeCommand_cases hdec with ⟨rate, off, rfl⟩ | ⟨n, src, rfl⟩ | rfl | rfl
    · rw [exec_init, Host.Outcome.next.injEq] at hexec
      rw [decodeCommand_eq_init hdec] at hc
      rcases execInit_cases { s with cmds := rest } rate off with ⟨h1, h2, h3⟩ | ⟨hf, hrate, hoff, heq⟩
      · exact .inl (hexec ▸ ⟨h1, h2, h3⟩)
      · exact .inr ⟨rate, off, rest, hrend, hc, hf, hrate, hoff, hexec.symm.trans heq⟩
    · obtain ⟨h1, h2, h3⟩ := renderWith_sameControl hexec
      exact .inl ⟨h1, h2, h3⟩
    · rw [exec_reset, Host.Outcome.next.injEq] at hexec
      obtain ⟨h1, h2, h3⟩ := (resetBody_sameControl { s with cmds := rest }).unlessFaulted none
      exact .inl (hexec ▸ ⟨h1, h2, h3⟩)
    · rw [exec_unrecognised, Host.Outcome.next.injEq] at hexec
      obtain ⟨h1, h2, h3⟩ := SameControl.unlessFaulted (s := { s with cmds := rest })
        (body := State.respond { s with cmds := rest } .ignored none) ⟨rfl, rfl, rfl⟩ none
      exact .inl (hexec ▸ ⟨h1, h2, h3⟩)

/-- Settles O57: every step but a valid INIT leaves SR, INITD and NMAX as they were. -/
theorem onlyInitWritesRateAndInitialised : Obligations.OnlyInitWritesRateAndInitialised := by
  intro s t h
  rcases step_sameControl_or_init h with ⟨hsr, hinitd, hnmax⟩ | ⟨rate, off, rest, hrend, hc, hf, hrate, hoff, rfl⟩
  · exact ⟨hinitd.trans, hnmax, fun hne => absurd hne (by simp [hsr, hinitd])⟩
  · exact ⟨fun _ => rfl, rfl, fun _ => ⟨rate, off, rest, hrend, hc, hf, hrate, hoff, rfl, rfl⟩⟩

end Machine

end Sys2Proof
end

section
/-! PROOFS. A RENDER cut in two (10_state.md R24; 43_engine.md R185): the sample loop is a function of the record and of what
the sources resolve to, and a loop of n + m samples is a loop of n and then one of m. -/

namespace Sys2Proof.Machine

/-! ## States that agree in the record -/

namespace State.SameRecord

variable {s t u : State}

theorem symm (h : s.SameRecord t) : t.SameRecord s :=
  ⟨h.phase.symm, h.phase2.symm, h.ssp.symm, h.dcX.symm, h.dcY.symm, h.sr.symm, h.initd.symm, h.fault.symm, h.finfo.symm,
    h.nmax.symm⟩

theorem trans (h : s.SameRecord t) (h' : t.SameRecord u) : s.SameRecord u :=
  ⟨h.phase.trans h'.phase, h.phase2.trans h'.phase2, h.ssp.trans h'.ssp, h.dcX.trans h'.dcX, h.dcY.trans h'.dcY,
    h.sr.trans h'.sr, h.initd.trans h'.initd, h.fault.trans h'.fault, h.finfo.trans h'.finfo, h.nmax.trans h'.nmax⟩

end State.SameRecord

theorem beginRender_sameRecord (s : State) (n : Nat) (src : Sources) : s.SameRecord (beginRender s n src) :=
  ⟨rfl, rfl, rfl, rfl, rfl, rfl, rfl, rfl, rfl, rfl⟩

theorem finishRender_sameRecord (s : State) : s.SameRecord (finishRender s) :=
  ⟨rfl, rfl, rfl, rfl, rfl, rfl, rfl, rfl, rfl, rfl⟩

/-- s with the output block, the RENDER in progress and the host's ports of u: what a sample step does not read. -/
def State.withPorts (s u : State) : State := { s with out := u.out, rend := u.rend, cmds := u.cmds, resp := u.resp }

theorem openSample_withPorts (P : Params) (r : Resolved) {s u : State} (h : s.SameRecord u) :
    openSample P u r = (openSample P s r).withPorts u := by
  obtain ⟨h1, h2, h3, h4, h5, h6, h7, h8, h9, h10⟩ := h
  unfold openSample State.withPorts
  rw [h1, h2, h3, h4, h5, h6, h7, h8, h9, h10]

theorem generate_withPorts (P : Params) (m : ModeBits) (s u : State) :
    generate P m (s.withPorts u) = (generate P m s).withPorts u := by
  unfold generate
  split_ifs <;> rfl

theorem generate_out (P : Params) (m : ModeBits) (s : State) : (generate P m s).out = s.out := by
  obtain ⟨x, hg⟩ := generate_frame P m s
  rw [hg]

/-! ## The sample loop as a function of the record -/

/-- Sample steps that start from the same record and resolve the same values leave the same record and write the same value,
each to its own frame. -/
theorem sampleStep_congr {P : Params} {pr pr' : Progress} {s s' t : State} (hrec : s.SameRecord s')
    (hres : resolveAll pr.src pr.index = resolveAll pr'.src pr'.index) (h : sampleStep P pr s = some t) :
    ∃ t' v, sampleStep P pr' s' = some t' ∧ t.SameRecord t' ∧ t.out = s.out.write pr.index v ∧
      t'.out = s'.out.write pr'.index v := by
  obtain ⟨r, hr, rfl⟩ := sampleStep_eq_some.mp h
  have heq : generate P (modeCode r.mode) (openSample P s' r) =
      (generate P (modeCode r.mode) (openSample P s r)).withPorts s' := by
    rw [openSample_withPorts P r hrec, generate_withPorts]
  have hout : (generate P (modeCode r.mode) (openSample P s r)).out = s.out := generate_out ..
  generalize generate P (modeCode r.mode) (openSample P s r) = u at heq hout ⊢
  refine ⟨nextSample (closeSample (u.withPorts s') pr'.index) pr', (dcOutput u.dcX u.dcY u.smp.x).mul u.smp.g,
    sampleStep_eq_some.mpr ⟨r, hres ▸ hr, by rw [heq]⟩, ?_, ?_, rfl⟩
  · exact ⟨rfl, rfl, rfl, rfl, rfl, rfl, rfl, rfl, rfl, rfl⟩
  · rw [nextSample_out, closeSample_out, hout]

/-- A sample loop writes no frame but those of its samples. -/
theorem renderLoop_read_other {P : Params} {k j : Nat} {pr : Progress} {s t : State} (h : renderLoop P k pr s = .next t)
    (hj : j < pr.index ∨ pr.index + k ≤ j) : t.out.read j = s.out.read j := by
  induction k generalizing pr s with
  | zero =>
    rw [renderLoop_zero, Host.Outcome.next.injEq] at h
    rw [← h, finishRender_out]
  | succ k ih =>
    obtain ⟨u, hu, hloop⟩ := renderLoop_succ_eq_next h
    obtain ⟨v, hv⟩ := (sampleStep_frame hu).out
    rw [ih hloop (by simp only; omega), hv, Memory.read_write_other v (by omega)]

/-- Sample loops that start from the same record and resolve the same values leave the same record and write the same
frames, each from its own index on. -/
theorem renderLoop_congr {P : Params} {k : Nat} {pr pr' : Progress} {s s' t : State} (hrec : s.SameRecord s')
    (hres : ∀ j < k, resolveAll pr.src (pr.index + j) = resolveAll pr'.src (pr'.index + j))
    (h : renderLoop P k pr s = .next t) :
    ∃ t', renderLoop P k pr' s' = .next t' ∧ t.SameRecord t' ∧
      ∀ j < k, t.out.read (pr.index + j) = t'.out.read (pr'.index + j) := by
  induction k generalizing pr pr' s s' with
  | zero =>
    rw [renderLoop_zero, Host.Outcome.next.injEq] at h
    subst h
    exact ⟨_, rfl, (finishRender_sameRecord s).symm.trans (hrec.trans (finishRender_sameRecord s')), by simp⟩
  | succ k ih =>
    obtain ⟨u, hu, hloop⟩ := renderLoop_succ_eq_next h
    obtain ⟨u', v, hu', hrec', hout, hout'⟩ := sampleStep_congr hrec (hres 0 k.succ_pos) hu
    obtain ⟨t', ht', hrect, hread⟩ := ih (pr' := { pr' with index := pr'.index + 1 }) hrec'
      (fun j hj => by simpa only [Nat.add_right_comm, Nat.add_assoc] using hres (j + 1) (by omega)) hloop
    refine ⟨t', (renderLoop_succ hu').trans ht', hrect, fun j hj => ?_⟩
    cases j with
    | zero =>
      rw [Nat.add_zero, Nat.add_zero, renderLoop_read_other hloop (.inl (Nat.lt_succ_self _)),
        renderLoop_read_other ht' (.inl (Nat.lt_succ_self _)), hout, hout', Memory.read_write_same,
        Memory.read_write_same]
    | succ j => simpa only [Nat.add_right_comm, Nat.add_assoc] using hread j (by omega)

/-- A loop of n + m samples is a loop of n, and then one of m from where its last sample step left the state. -/
theorem renderLoop_add {P : Params} {n m : Nat} {pr : Progress} {s t : State}
    (h : renderLoop P (n + m) pr s = .next t) :
    ∃ w, renderLoop P n pr s = .next (finishRender w) ∧
      renderLoop P m { pr with index := pr.index + n } w = .next t := by
  induction n generalizing pr s with
  | zero => exact ⟨s, rfl, by simpa using h⟩
  | succ n ih =>
    rw [Nat.add_right_comm] at h
    obtain ⟨u, hu, hloop⟩ := renderLoop_succ_eq_next h
    obtain ⟨w, hw, hwt⟩ := ih hloop
    exact ⟨w, (renderLoop_succ hu).trans hw, by simpa only [Nat.add_assoc, Nat.add_comm 1] using hwt⟩

/-! ## Block-constant parameters (40_primitives.md R100) -/

theorem resolve_of_length_le_one {src : Sources} {p : Param} (h : (src.get p).arr.length ≤ 1) (n : Nat) :
    resolve src p n = some (src.get p).kval := if_neg (Nat.not_lt.mpr h)

/-- What a sample step resolves depends on the sources only through the resolver. -/
theorem resolveAll_congr {src src' : Sources} {j k : Nat} (h : ∀ p, resolve src p j = resolve src' p k) :
    resolveAll src j = resolveAll src' k := by
  simp only [resolveAll, resolveFinite, h]

section
variable {src : Sources} (hlen : ∀ p, (src.get p).arr.length ≤ 1)
include hlen

/-- Block-constant parameters resolve alike in every sample. -/
theorem resolveAll_of_length_le_one (j k : Nat) : resolveAll src j = resolveAll src k :=
  resolveAll_congr fun p => by rw [resolve_of_length_le_one (hlen p), resolve_of_length_le_one (hlen p)]

variable (hfin : ∀ p, (src.get p).kval.isFinite = true)
include hfin

/-- Block-constant finite parameters pass the checks of a block of any length. -/
theorem checks_of_length_le_one (n : Nat) : firstBadArray n src = none ∧ firstNonFinite src n = none := by
  refine ⟨firstBadArray_eq_none.mpr fun p => .inl (hlen p), firstNonFinite_eq_none.mpr fun k _ p v hv => ?_⟩
  rw [resolve_of_length_le_one (hlen p), Option.some.injEq] at hv
  exact hv ▸ hfin p

theorem exec_render_of_length_le_one {s : State} {n : Nat} (hf : s.fault = .noFault) (hi : s.initd = true)
    (hn : n ≤ s.nmax) :
    exec (.render n src) s = renderLoop Config.params n { len := n, src := src, index := 0 } (beginRender s n src) := by
  obtain ⟨hbad, hnon⟩ := checks_of_length_le_one hlen hfin n
  rw [exec_render, renderWith_ok hf hn hi hbad hnon]

end

/-- Settles O44: the whole block's loop is cut after n samples, and each half is compared with the RENDER of its own. -/
theorem blocksOfConstantParametersSplit : Obligations.BlocksOfConstantParametersSplit := by
  intro s n m src hf hi hnm hlen hfin
  have hres : ∀ j k, resolveAll src j = resolveAll src k := resolveAll_of_length_le_one hlen
  obtain ⟨hbad, hnon⟩ := checks_of_length_le_one hlen hfin (n + m)
  obtain ⟨t, ht⟩ := renderLoop_completes Config.params (k := n + m) (pr := ⟨n + m, src, 0⟩) (beginRender s (n + m) src)
    fun j hj => exists_resolveAll hbad hnon (by simpa using hj)
  obtain ⟨w, hw, hwt⟩ := renderLoop_add ht
  obtain ⟨u, hu, hwu, hfirst⟩ := renderLoop_congr (pr' := ⟨n, src, 0⟩) (s' := beginRender s n src)
    ((beginRender_sameRecord s (n + m) src).symm.trans (beginRender_sameRecord s n src)) (fun _ _ => hres _ _) hw
  obtain ⟨v, hv, htv, hlast⟩ := renderLoop_congr (pr' := ⟨m, src, 0⟩) (s' := beginRender u m src)
    ((finishRender_sameRecord w).trans (hwu.trans (beginRender_sameRecord u m src))) (fun _ _ => hres _ _) hwt
  obtain ⟨-, hui, huf, -, -, hun, -⟩ := renderLoop_frame hu
  have hum : m ≤ u.nmax := by
    rw [hun, beginRender_nmax]
    omega
  refine ⟨t, u, v, (exec_render_of_length_le_one hlen hfin hf hi hnm).trans ht,
    (exec_render_of_length_le_one hlen hfin hf hi (by omega)).trans hu,
    (exec_render_of_length_le_one hlen hfin (huf.trans hf) (hui.trans hi) hum).trans hv, htv, fun k hk => ?_, fun k hk => ?_⟩
  · have hleft : t.out.read k = w.out.read k := renderLoop_read_other hwt (.inl (by simpa using hk))
    simpa [hleft] using (hfirst k hk).symm
  · simpa using (hlast k hk).symm

end Sys2Proof.Machine
end

section
/-! PROOFS. Serialisation (20_memory.md R53): the bytes of a word and of a value are their successive slices of eight bits,
and adjacent slices, appended from the top down, are the bits they were taken from. -/

namespace Sys2Proof

/-- The n low bytes of x, least significant first: byte i is its bits 8i to 8i + 7. -/
def littleEndian {k : Nat} (x : BitVec k) (n : Nat) : List Byte :=
  (List.range n).map fun i => x.extractLsb' (8 * i) 8

theorem getElem?_littleEndian {k : Nat} (x : BitVec k) (n i : Nat) :
    (littleEndian x n)[i]? = if i < n then some (x.extractLsb' (8 * i) 8) else none := by
  rw [littleEndian, List.getElem?_map]
  split_ifs with h
  · rw [List.getElem?_range h, Option.map_some]
  · simp [Nat.not_lt.mp h]

theorem wordToBytes_eq_littleEndian (w : CmdWord) : wordToBytes w = littleEndian w 4 := rfl

theorem f64ToBytes_eq_littleEndian (x : F64) : f64ToBytes x = littleEndian x.bits 8 := rfl

theorem wordOfBytes_wordToBytes_append (w : CmdWord) (rest : List Byte) :
    wordOfBytes (wordToBytes w ++ rest) = .ok (w, rest) := by
  simp only [wordToBytes, wordOfBytes, List.cons_append, List.nil_append]
  simp only [BitVec.extractLsb'_append_extractLsb'_eq_extractLsb']
  rw [BitVec.extractLsb'_eq_self]

theorem f64OfBytes_f64ToBytes (x : F64) : f64OfBytes (f64ToBytes x) = some x := by
  simp only [f64ToBytes, f64OfBytes]
  simp only [BitVec.extractLsb'_append_extractLsb'_eq_extractLsb']
  rw [BitVec.extractLsb'_eq_self]

/-- Settles O7: the bytes are consecutive slices, read back by joining each slice to the ones below it. -/
theorem serialisedWordsAndValuesReadBack : Obligations.SerialisedWordsAndValuesReadBack := by
  refine ⟨wordOfBytes_wordToBytes_append, fun w i => ?_, f64OfBytes_f64ToBytes, fun x i => ?_⟩
  · rw [wordToBytes_eq_littleEndian, getElem?_littleEndian]
  · rw [f64ToBytes_eq_littleEndian, getElem?_littleEndian]

end Sys2Proof
end

section
/-! PROOFS. The encoding (30_encoding.md R70 to R84): a command word is its two fields joined, so the decoder's kinds are
comparisons of the whole word; a finite mode value is floored, and real(k) is exact for the bounds it is compared with; a
step with nothing in progress is what the head of the command port decodes to. -/

namespace Sys2Proof

/-! ## Command words (R71, R72, R77) -/

theorem fieldRsv_append_fieldOp (w : CmdWord) : fieldRsv w ++ fieldOp w = w := by
  simp only [fieldRsv, fieldOp, BitVec.extractLsb'_append_extractLsb'_eq_extractLsb', Nat.zero_add]
  exact BitVec.extractLsb'_eq_self

theorem fields_eq_iff {w : CmdWord} {rsv : BitVec 24} {op : BitVec 8} :
    fieldRsv w = rsv ∧ fieldOp w = op ↔ w = rsv ++ op := by
  constructor
  · rintro ⟨rfl, rfl⟩
    exact (fieldRsv_append_fieldOp w).symm
  · rintro rfl
    exact ⟨BitVec.extractLsb'_append_eq_left, BitVec.extractLsb'_append_eq_right⟩

/-- The kind of a word by the table of R72, the reserved field no longer set apart. -/
theorem cmdKind_eq (w : CmdWord) :
    cmdKind w =
      if w = 0x00000001#32 then .init else if w = 0x00000002#32 then .render
      else if w = 0x00000010#32 then .reset else .unrecognised := by
  have hword (op : BitVec 8) : w = 0#24 ++ op ↔ fieldRsv w = 0#24 ∧ fieldOp w = op := fields_eq_iff.symm
  have h1 : w = 0x00000001#32 ↔ _ := hword 0x01#8
  have h2 : w = 0x00000002#32 ↔ _ := hword 0x02#8
  have h10 : w = 0x00000010#32 ↔ _ := hword 0x10#8
  simp only [cmdKind, h1, h2, h10]
  by_cases hrsv : fieldRsv w = 0#24
  · simp [hrsv]
  · simp [hrsv]

/-- Settles O1: the three assigned words are distinct, and any other word falls through all three comparisons. -/
theorem commandWordsDecodeAsTabled : Obligations.CommandWordsDecodeAsTabled := by
  intro w
  rw [cmdKind_eq]
  split_ifs with h1 h2 h10
  · simp [h1]
  · simp [h2]
  · simp [h10]
  · simp [h1, h2, h10]

/-! ## Commands and table words (R70, R79, R84; log 17) -/

theorem decodeCommand_unrecognised {c : Command} (h : cmdKind c.word = .unrecognised) :
    decodeCommand c = .ok (.unrecognised c.word) := by
  rw [decodeCommand, h]

theorem decodeCommand_render (n : Nat) (src : Sources) :
    decodeCommand { word := 0x00000002#32, ops := .render n src } = .ok (.render n src) := by
  rw [decodeCommand, cmdKind_eq]
  rfl

/-- Settles O6: RENDERK carries RENDER's word and record, and NOP's word is none of the three assigned ones. -/
theorem pseudoInstructionsExpand : Obligations.PseudoInstructionsExpand :=
  ⟨decodeCommand_unrecognised (cmdKind_eq _), fun _ _ _ _ _ _ _ _ => decodeCommand_render _ _⟩

/-- A 32-bit table word stands for the command of its low 32 bits with a record of zeros. -/
theorem decodeTableWord_eq_some {w : Nat} {i : Instr} :
    decodeTableWord 32 w = some i ↔ w < 2 ^ 32 ∧ decodeCommand (commandOfWord (BitVec.ofNat 32 w)) = .ok i := by
  have hmode : isModeWidth 32 = false := rfl
  rw [decodeTableWord, hmode, if_neg Bool.false_ne_true]
  cases decodeCommand (commandOfWord (BitVec.ofNat 32 w)) <;> simp [Except.toOption]

theorem decodeTableWord_unrecognised {w : Nat} (hw : w < 2 ^ 32) (h : cmdKind (BitVec.ofNat 32 w) = .unrecognised) :
    decodeTableWord 32 w = some (.unrecognised (BitVec.ofNat 32 w)) :=
  decodeTableWord_eq_some.mpr ⟨hw, decodeCommand_unrecognised h⟩

/-- Settles O4: the command words by their kinds, the eight mode codes by running the decoder. -/
theorem writtenWordsDecode : Obligations.WrittenWordsDecode :=
  ⟨rfl, rfl, decodeTableWord_unrecognised (by decide) (cmdKind_eq _), decodeTableWord_unrecognised (by decide) (cmdKind_eq _),
    by decide⟩

/-! ## The mode code of a finite value (R78) -/

namespace F64

/-- real(k) is exact below 2^53. -/
theorem ofInt_exact {k : Int} (hk : k.natAbs < 2 ^ 53) : (ofInt k).isFinite = true ∧ (ofInt k).val = k * unitScale := by
  obtain ⟨c, hc, h⟩ := exists_finite_code (k := 1074) hk (by norm_num)
  exact ofInt_of_code hc (by rw [h, unitScale_eq])

theorem lt_ofInt_iff {v : F64} (hv : v.isFinite = true) {k : Int} (hk : k.natAbs < 2 ^ 53) :
    v.lt (ofInt k) = true ↔ v.floorInt < k := by
  obtain ⟨hfin, hval⟩ := ofInt_exact hk
  rw [lt_iff hv hfin, hval, floorInt, Int.ediv_lt_iff_lt_mul unitScale_pos_int]

theorem ofInt_le_iff {v : F64} (hv : v.isFinite = true) {k : Int} (hk : k.natAbs < 2 ^ 53) :
    (ofInt k).le v = true ↔ k ≤ v.floorInt := by
  obtain ⟨hfin, hval⟩ := ofInt_exact hk
  rw [le_iff hfin hv, hval, floorInt, Int.le_ediv_iff_mul_le unitScale_pos_int]

end F64

namespace Machine

theorem modeCode_eq_iff {v : F64} {m : ModeBits} : modeCode v = m ↔ Min.min (Max.max v.floorInt 0) 4 = m.toNat := by
  rw [← BitVec.toNat_inj, modeCode_toNat]
  omega

/-- Settles O5: both sides are comparisons of the floor of v with whole numbers. -/
theorem modeCodeIsFlooredAndClamped : Obligations.ModeCodeIsFlooredAndClamped := by
  intro v hv
  have hlt (k : Int) (hk : k.natAbs < 2 ^ 53) := F64.lt_ofInt_iff hv hk
  have hle (k : Int) (hk : k.natAbs < 2 ^ 53) := F64.ofInt_le_iff hv hk
  rw [hlt 1 (by decide), hlt 2 (by decide), hlt 3 (by decide), hlt 4 (by decide), hle 1 (by decide), hle 2 (by decide),
    hle 3 (by decide), hle 4 (by decide)]
  simp only [modeCode_eq_iff, BitVec.toNat_ofNat]
  omega

/-! ## The command port (R70; 43_engine.md R180; 20_memory.md R56) -/

section
variable {s : State} (hrend : s.rend = none)
include hrend

theorem step_of_rend_none : step s = stepCommand s := by
  rw [step, hrend]

theorem step_waits (hcmds : s.cmds = []) : step s = .next s := by
  rw [step_of_rend_none hrend, stepCommand, hcmds]

theorem step_runs_command {c : Command} {rest : List Command} {i : Instr} (hcmds : s.cmds = c :: rest)
    (hdec : decodeCommand c = .ok i) : step s = exec i { s with cmds := rest } := by
  simp only [step_of_rend_none hrend, stepCommand, hcmds, hdec]

theorem step_refuses_command {c : Command} {rest : List Command} {e : DecodeError} (hcmds : s.cmds = c :: rest)
    (hdec : decodeCommand c = .error e) : step s = .refused .operandShape := by
  simp only [step_of_rend_none hrend, stepCommand, hcmds, hdec]

end

/-- Settles O49: the three cases of a step with nothing in progress. -/
theorem stepRunsTheNextCommand : Obligations.StepRunsTheNextCommand :=
  fun _ hrend => ⟨step_waits hrend, fun _ _ _ => step_runs_command hrend, fun _ _ _ => step_refuses_command hrend⟩

theorem withFetchWord_command (s : State) (w : Nat) :
    s.withFetchWord 32 w = { s with rend := none, cmds := commandOfWord (BitVec.ofNat 32 w) :: s.cmds } := rfl

/-- Settles O51: the placed word is the head of the command port, with nothing in progress. -/
theorem placedWordRunsNext : Obligations.PlacedWordRunsNext := by
  intro s w i h
  obtain ⟨-, hdec⟩ := decodeTableWord_eq_some.mp h
  rw [withFetchWord_command]
  exact step_runs_command rfl rfl hdec

end Machine

end Sys2Proof
end

section
/-! PROOFS. The primitives (40_primitives.md R100 to R111): the clamps on either side of their bounds, the wraps and the
corrector by the exact differences they round, and a RENDER as a function of what its sources resolve to. -/

namespace Sys2Proof.F64

/-! ## Data given by their values -/

theorem zero_eq_bits : zero = ⟨0#64⟩ := by decide +kernel

theorem half_spec : half.isFinite = true ∧ 2 * half.val = unitScale := by decide +kernel

/-- Only the two zeros share a value. -/
theorem eq_of_val_eq {x y : F64} (h0 : x.val ≠ 0) (h : x.val = y.val) : x = y := by
  have hs (z : F64) (hz : z.val ≠ 0) : z.sgn = decide (z.val < 0) := sgn_eq_of_signed_ne_zero hz
  refine ext_sgn_mag ?_ (magUnits_strictMono.injective ?_)
  · rw [hs x h0, hs y (h ▸ h0), h]
  · rw [← natAbs_val, ← natAbs_val, h]

theorem sgn_eq_false_of_pos {x : F64} (h : 0 < x.val) : x.sgn = false := by
  by_contra hs
  rw [val_eq_signed, Bool.eq_true_of_not_eq_false hs, signed_true] at h
  omega

theorem lt_irrefl (x : F64) : x.lt x = false := by simp [lt]

theorem lt_eq_false_iff {x y : F64} (hx : x.isFinite = true) (hy : y.isFinite = true) :
    x.lt y = false ↔ y.val ≤ x.val := by
  rw [Bool.eq_false_iff, ne_eq, lt_iff hx hy, Int.not_lt]

theorem le_eq_false_iff {x y : F64} (hx : x.isFinite = true) (hy : y.isFinite = true) :
    x.le y = false ↔ y.val < x.val := by
  rw [Bool.eq_false_iff, ne_eq, le_iff hx hy, Int.not_le]

/-- What the claims say of a value in [0, 1]. -/
theorem Between.zero_le_one {x : F64} (h : Between zero one x) : zero.le x = true ∧ x.le one = true :=
  ⟨(le_iff zero_isFinite h.finite).mpr h.le, (le_iff h.finite one_isFinite).mpr h.ge⟩

/-! ## Differences and quotients -/

/-- A difference of finite values that is not zero does not round to zero. -/
theorem sub_val_neg {x y : F64} (hx : x.isFinite = true) (hy : y.isFinite = true) (hz : (x.sub y).isFinite = true)
    (h : x.val < y.val) : (x.sub y).val < 0 := by
  have hunit : (pack true 1).isFinite = true ∧ (pack true 1).val = -1 := by decide +kernel
  have := (sub_roundsTo hx hy).val_le Nat.one_pos hz hunit.1 (by omega)
  omega

/-- From 1 up to 2 the difference to 1 is a binary64 number. -/
theorem sub_one_val {x : F64} (hx : x.isFinite = true) (h1 : unitScale ≤ x.val) (h2 : x.val ≤ belowTwo.val) :
    (x.sub one).val = x.val - unitScale := by
  have hval : x.val = magUnits x.mag := by
    rw [← natAbs_val]
    have := unitScale_pos_int
    omega
  have hlo : 1023 * 2 ^ 52 ≤ x.mag := by
    rw [← magUnits_le_iff, show magUnits (1023 * 2 ^ 52) = unitScale by decide +kernel]
    omega
  have hhi : x.mag < 1024 * 2 ^ 52 := by
    rw [← magUnits_lt_iff]
    have : belowTwo.val < magUnits (1024 * 2 ^ 52) := by decide +kernel
    omega
  obtain ⟨m, hm⟩ : ∃ m, x.mag = 1022 * 2 ^ 52 + (2 ^ 52 + m) := ⟨x.mag - 1023 * 2 ^ 52, by omega⟩
  obtain ⟨c, hc, hcm⟩ := exists_finite_code (n := m) (k := 1022) (by omega) (by norm_num)
  have hc' : c < 2 ^ 63 := hc.trans infMag_lt
  have hscale : unitScale = 2 ^ 52 * 2 ^ 1022 := by decide +kernel
  have hz : (pack false c).val = x.val - unitScale := by
    rw [val_pack_signed hc', signed_false, hcm, hval, hm, magUnits_shift (by omega) (.inr (by omega)), Nat.add_mul,
      ← hscale, Nat.cast_add, add_sub_cancel_left]
  rw [sub_eq_add_neg, ← hz]
  exact val_add_exact hx (by rw [isFinite_neg]; exact one_isFinite) (by rw [isFinite_pack hc', decide_eq_true hc])
    (by rw [val_neg, one_val, hz, Int.sub_eq_add_neg])

theorem zero_div {y : F64} (hy : y.isFinite = true) (h : 0 < y.val) : zero.div y = zero := by
  have hu : 0 < magUnits y.mag := by rw [← natAbs_val]; omega
  have hz : zero.mag = 0 ∧ zero.sgn = false ∧ pack false 0 = zero := by decide +kernel
  rw [div_finite zero_isFinite hy (magUnits_pos.mp hu).ne', hz.1, hz.2.1, sgn_eq_false_of_pos h, magUnits_zero, Nat.zero_mul,
    roundMag_zero hu]
  exact hz.2.2

/-! ## max, min and clamp -/

theorem max_of_lt {x y : F64} (h : x.lt y = true) : x.max y = y := by
  unfold max
  exact if_pos h

theorem min_of_lt {x y : F64} (h : x.lt y = true) : x.min y = x := by
  unfold min
  exact if_pos h

theorem clamp_spec {x lo hi : F64} (hx : x.isFinite = true) (hlo : lo.isFinite = true) (hhi : hi.isFinite = true) :
    (x.clamp lo hi).isFinite = true ∧ (x.clamp lo hi).val = Min.min (Max.max x.val lo.val) hi.val := by
  obtain ⟨hf, hv⟩ := max_spec hx hlo
  rw [← hv]
  exact min_spec hf hhi

end Sys2Proof.F64

namespace Sys2Proof.Machine

open F64

/-! ## Resolver (R100) -/

theorem resolve_of_one_lt_length {src : Sources} {p : Param} (h : 1 < (src.get p).arr.length) (n : Nat) :
    resolve src p n = (src.get p).arr[n]? := if_pos h

/-- Settles O11: the resolver's two cases. -/
theorem resolveTakesTheArrayOrTheConstant : Obligations.ResolveTakesTheArrayOrTheConstant :=
  fun _ _ n => ⟨fun h => resolve_of_one_lt_length h n, fun h => resolve_of_length_le_one h n⟩

/-! ## Clamps (R102 to R104) -/

theorem freqFloor_of_admissible {P : Params} {sr : F64} (h0 : zero.lt (P.freqFloor sr) = true)
    (hle : (P.freqFloor sr).le (freqBound sr) = true) : freqFloor P sr = P.freqFloor sr :=
  if_pos (by rw [h0, hle]; rfl)

theorem clampFreq_of_above {P : Params} {sr x : F64} (h : (freqBound sr).lt x = true) : clampFreq P sr x = freqBound sr :=
  if_pos h

theorem clampFreq_of_le_zero {P : Params} {sr x : F64} (h : (freqBound sr).lt x = false) (h0 : x.le zero = true) :
    clampFreq P sr x = freqFloor P sr := by
  rw [clampFreq, h, if_neg Bool.false_ne_true, if_pos h0]

theorem clampFreq_of_within {P : Params} {sr x : F64} (h : (freqBound sr).lt x = false) (h0 : x.le zero = false) :
    clampFreq P sr x = x := by
  rw [clampFreq, h, if_neg Bool.false_ne_true, h0, if_neg Bool.false_ne_true]

/-- Where the bound is above 0 so is FREQ_FLOOR, whatever the implementation chose. -/
theorem freqFloor_pos {P : Params} {sr : F64} (hb : 0 < (freqBound sr).val) : 0 < (freqFloor P sr).val := by
  unfold freqFloor
  split_ifs with h
  · rw [Bool.and_eq_true] at h
    simpa using val_lt_of_lt h.1
  · exact hb

/-- Settles O12: the clamp's three branches, the bound being finite and above 0. -/
theorem frequencyIsClamped : Obligations.FrequencyIsClamped := by
  intro P sr x hsr hpos hx
  rw [← freqShare, ← freqBound] at *
  obtain ⟨hbf, -, -⟩ := freqBound_spec hsr
  have hb : 0 < (freqBound sr).val := by simpa using val_lt_of_lt hpos
  have hnot : x.le zero = true → (freqBound sr).lt x = false := fun h => by
    have := val_le_of_le h
    rw [zero_val] at this
    exact (lt_eq_false_iff hbf hx).mpr (by omega)
  refine ⟨clampFreq_of_above, fun h h0 hle => ?_, fun h => ?_, fun h0 hle => ?_⟩
  · rw [clampFreq_of_le_zero (hnot h) h, freqFloor_of_admissible h0 hle]
  · rw [clampFreq_of_le_zero (hnot h) h]
    obtain ⟨hf, -, hle⟩ := freqFloor_between (P := P) hsr
    exact ⟨(lt_iff zero_isFinite hf).mpr (by rw [zero_val]; exact freqFloor_pos hb), (le_iff hf hbf).mpr hle⟩
  · exact clampFreq_of_within ((lt_eq_false_iff hbf hx).mpr (val_le_of_le hle))
      ((le_eq_false_iff hx zero_isFinite).mpr (val_lt_of_lt h0))

theorem clampUnit_val {x : F64} (hx : x.isFinite = true) :
    (clampUnit x).val = Min.min (Max.max x.val 0) unitScale := by
  have := (clamp_spec hx zero_isFinite one_isFinite).2
  rwa [zero_val, one_val] at this

/-- Below 0 the unit clamp answers its own lower bound, and no other zero. -/
theorem clampUnit_of_neg {x : F64} (h : x.lt zero = true) : clampUnit x = zero := by
  have hone : zero.lt one = true := by decide +kernel
  rw [clampUnit, clamp, max_of_lt h, min_of_lt hone]

theorem pw_bounds : pwMin.isFinite = true ∧ pwMax.isFinite = true ∧ 0 < pwMin.val ∧ pwMin.val < pwMax.val ∧
    pwMax.val < unitScale := by decide +kernel

theorem clampPW_val {x : F64} (hx : x.isFinite = true) :
    (clampPW x).val = Min.min (Max.max x.val pwMin.val) pwMax.val :=
  (clamp_spec hx pw_bounds.1 pw_bounds.2.1).2

/-- A clamped pulse width is told by its value, which is not 0. -/
theorem clampPW_eq {x y : F64} (hx : x.isFinite = true) (h : Min.min (Max.max x.val pwMin.val) pwMax.val = y.val) :
    clampPW x = y := by
  obtain ⟨-, -, h0, hlt, -⟩ := pw_bounds
  exact eq_of_val_eq (by rw [clampPW_val hx]; omega) (by rw [clampPW_val hx, h])

/-- Settles O13: the value of each clamp says which datum it is, but for the zero below the unit interval. -/
theorem unitAndWidthAreClamped : Obligations.UnitAndWidthAreClamped := by
  intro x hx
  rw [← pwMin, ← pwMax]
  have hU := unitScale_pos_int
  obtain ⟨-, -, hmin, hlt, -⟩ := pw_bounds
  refine ⟨fun hl hg => ?_, fun h => ?_, fun h => ?_, fun hl hg => ?_, fun h => ?_, fun h => ?_⟩
  · have hl := val_le_of_le hl
    have hg := val_le_of_le hg
    rw [zero_val] at hl
    rw [one_val] at hg
    rw [clampUnit_val hx]
    omega
  · rw [clampUnit_of_neg h, zero_eq_bits]
  · have h := val_lt_of_lt h
    rw [one_val] at h
    have hv : (clampUnit x).val = unitScale := by rw [clampUnit_val hx]; omega
    exact eq_of_val_eq (by omega) (by rw [hv, one_val])
  · have hl := val_le_of_le hl
    have hg := val_le_of_le hg
    exact clampPW_eq hx (by omega)
  · have h := val_lt_of_lt h
    exact clampPW_eq hx (by omega)
  · have h := val_lt_of_lt h
    exact clampPW_eq hx (by omega)

/-! ## Accumulator (R105 to R107) -/

theorem add_between_of_inUnit {ph dt : F64} (hph : ph.inUnit = true) (hdt : dt.inUnit = true) :
    Between zero belowTwo (ph.add dt) :=
  (inUnit_iff.mp hph).add (inUnit_iff.mp hdt) zero_isFinite belowTwo_isFinite (by simp) (by decide +kernel)

theorem advance_of_one_le {ph dt : F64} (h : one.le (ph.add dt) = true) : advance ph dt = (ph.add dt).sub one := by
  rw [advance, if_pos h]

theorem advance_of_not_one_le {ph dt : F64} (h : one.le (ph.add dt) = false) : advance ph dt = ph.add dt := by
  rw [advance, h, if_neg Bool.false_ne_true]

/-- Settles O14: the sum is below 2, so from 1 on its difference to 1 is exact. -/
theorem advanceWrapsExactly : Obligations.AdvanceWrapsExactly := by
  intro ph dt hph hdt
  obtain ⟨hf, -, hg⟩ := add_between_of_inUnit hph hdt
  refine ⟨fun h => ?_, fun h => advance_of_not_one_le ((le_eq_false_iff one_isFinite hf).mpr (val_lt_of_lt h))⟩
  have hone := val_le_of_le h
  rw [one_val] at hone
  rw [advance_of_one_le h]
  exact ⟨rfl, sub_one_val hf hone hg⟩

/-- Settles O15: the sum is below 2, and wrapped from 1 on. -/
theorem advancedPhaseStaysInTheUnit : Obligations.AdvancedPhaseStaysInTheUnit := fun _ _ => advance_inUnit

/-- Settles O16: a clamped frequency is at most half the sample rate, and each increment is a quotient of one by it. -/
theorem incrementsStayBelowOne : Obligations.IncrementsStayBelowOne := by
  rintro P sr x y tim det hsr hx htim hdet rfl
  have hf := clampFreq_between (P := P) hsr (isNaN_of_isFinite hx)
  exact ⟨inc_inUnit hsr hf, fmInc_inUnit hsr hf (clampUnit_between htim),
    fun _ => voiceInc_inUnit hsr hf (clampUnit_between hdet)⟩

/-! ## The corrector (R108, R109) -/

section
variable {t dt : F64}

theorem polyBlep_rise (h : t.lt dt = true) : polyBlep t dt = blepRise (t.div dt) := if_pos h

theorem polyBlep_fall (h : t.lt dt = false) (h' : (one.sub dt).lt t = true) :
    polyBlep t dt = blepFall ((t.sub one).div dt) := by
  rw [polyBlep, h, if_neg Bool.false_ne_true, if_pos h']

theorem polyBlep_flat (h : t.lt dt = false) (h' : (one.sub dt).lt t = false) : polyBlep t dt = zero := by
  rw [polyBlep, h, if_neg Bool.false_ne_true, h', if_neg Bool.false_ne_true]

end

/-- Settles O17: the corrector's two tests, in order. -/
theorem polyBlepTakesItsBranches : Obligations.PolyBlepTakesItsBranches :=
  fun _ _ => ⟨polyBlep_rise, polyBlep_fall, fun h h' => (polyBlep_flat h h').trans zero_eq_bits⟩

/-- For an increment up to one half, 1 - dt is at least one half. -/
theorem one_sub_between {dt : F64} (hdt : dt.isFinite = true) (h0 : 0 ≤ dt.val) (hle : dt.val ≤ half.val) :
    Between half one (one.sub dt) := by
  obtain ⟨hf, hv⟩ := half_spec
  exact (sub_roundsTo one_isFinite hdt).between Nat.one_pos hf one_isFinite (by rw [one_val]; omega) (by omega)

theorem polyBlep_zero_increment {t : F64} (ht : Between zero one t) : polyBlep t zero = zero := by
  have hone : one.sub zero = one := by decide +kernel
  refine polyBlep_flat ((lt_eq_false_iff ht.finite zero_isFinite).mpr ht.le) ?_
  rw [hone]
  exact (lt_eq_false_iff one_isFinite ht.finite).mpr ht.ge

/-- Settles O18: at the edges the polynomials' argument is an exact 0, and at t = dt and t = 1 - dt no test holds. -/
theorem polyBlepCornerValues : Obligations.PolyBlepCornerValues := by
  intro dt hdt hpos hle
  have h0 := val_lt_of_lt hpos
  have hv := val_le_of_le hle
  rw [zero_val] at h0
  obtain ⟨-, hhalf⟩ := half_spec
  obtain ⟨hf, hl, hg⟩ := one_sub_between hdt h0.le hv
  rw [← zero_eq_bits]
  refine ⟨?_, ?_, ?_, fun h => ?_, fun t ht hl hg => ?_⟩
  · rw [polyBlep_rise hpos, zero_div hdt h0]
    decide +kernel
  · exact polyBlep_flat (lt_irrefl dt) ((lt_eq_false_iff hf hdt).mpr (hv.trans hl))
  · exact polyBlep_flat ((lt_eq_false_iff hf hdt).mpr (hv.trans hl)) (lt_irrefl _)
  · have hone : one.sub one = zero ∧ blepFall zero = one := by decide +kernel
    rw [polyBlep_fall ((lt_eq_false_iff one_isFinite hdt).mpr (by rw [one_val]; omega)) h, hone.1, zero_div hdt h0, hone.2]
  · exact polyBlep_zero_increment ⟨ht, val_le_of_le hl, val_le_of_le hg⟩

/-! ## Wraps (R110, R111) -/

theorem wrapNeg_of_neg {x : F64} (h : x.lt zero = true) : wrapNeg x = x.add one := if_pos h

theorem wrapNeg_of_not_neg {x : F64} (h : x.lt zero = false) : wrapNeg x = x := by
  rw [wrapNeg, h, if_neg Bool.false_ne_true]

/-- A phase before the falling edge is behind it by at most the greatest pulse width, and the wrap adds 1. -/
theorem wrapNeg_sub_of_lt {p0 pw : F64} (hp : p0.inUnit = true) (hw : Between pwMin pwMax pw) (h : p0.val < pw.val) :
    wrapNeg (p0.sub pw) = (p0.sub pw).add one ∧ Between zero one ((p0.sub pw).add one) := by
  obtain ⟨hpf, hpl, -⟩ := inUnit_iff.mp hp
  obtain ⟨hwf, -, hwg⟩ := hw
  obtain ⟨-, hmaxf, -, -, hmax⟩ := pw_bounds
  rw [zero_val] at hpl
  have hd : Between pwMax.neg zero (p0.sub pw) :=
    (sub_roundsTo hpf hwf).between Nat.one_pos (by rw [isFinite_neg]; exact hmaxf) zero_isFinite
      (by rw [val_neg]; omega) (by rw [zero_val]; omega)
  have hneg := sub_val_neg hpf hwf hd.finite h
  exact ⟨wrapNeg_of_neg ((lt_iff hd.finite zero_isFinite).mpr (by rwa [zero_val])),
    hd.add ⟨one_isFinite, le_rfl, le_rfl⟩ zero_isFinite one_isFinite (by rw [zero_val, val_neg, one_val]; omega) (by simp)⟩

/-- From the falling edge on the difference is not negative. -/
theorem wrapNeg_sub_of_ge {p0 pw : F64} (hp : p0.inUnit = true) (hw : Between pwMin pwMax pw) (h : pw.val ≤ p0.val) :
    wrapNeg (p0.sub pw) = p0.sub pw ∧ Between zero one (p0.sub pw) := by
  obtain ⟨hpf, -, hpg⟩ := inUnit_iff.mp hp
  obtain ⟨hwf, hwl, -⟩ := hw
  obtain ⟨-, -, hmin, -⟩ := pw_bounds
  have hbelow := belowOne_lt_one
  have hd : Between zero one (p0.sub pw) :=
    (sub_roundsTo hpf hwf).between Nat.one_pos zero_isFinite one_isFinite (by rw [zero_val]; omega)
      (by rw [one_val]; omega)
  exact ⟨wrapNeg_of_not_neg ((lt_eq_false_iff hd.finite zero_isFinite).mpr hd.le), hd⟩

/-- Settles O19: the phase before the falling edge, and from it on. -/
theorem fallingEdgePositionWraps : Obligations.FallingEdgePositionWraps := by
  intro p0 pw hp hwf hlo hhi
  have hpf := (inUnit_iff.mp hp).finite
  have hw : Between pwMin pwMax pw := ⟨hwf, val_le_of_le hlo, val_le_of_le hhi⟩
  cases h : p0.lt pw with
  | true =>
    obtain ⟨heq, hb⟩ := wrapNeg_sub_of_lt hp hw (val_lt_of_lt h)
    rw [heq]
    exact ⟨fun _ => rfl, fun h => absurd h (by decide), hb.zero_le_one⟩
  | false =>
    obtain ⟨heq, hb⟩ := wrapNeg_sub_of_ge hp hw ((lt_eq_false_iff hpf hwf).mp h)
    rw [heq]
    exact ⟨fun h => absurd h (by decide), fun _ => rfl, hb.zero_le_one⟩

/-- The fractional part rounds an exact difference in [0, 1). -/
theorem frac_between {x : F64} (hx : x.isFinite = true) : Between zero one (frac x) := by
  obtain ⟨hf, -, hle, hlt⟩ := floorIsExact x hx
  exact (sub_roundsTo hx hf).between Nat.one_pos zero_isFinite one_isFinite (by rw [zero_val]; omega)
    (by rw [one_val]; omega)

/-- Settles O20: the floor is not above x and less than 1 below it. -/
theorem fractionLiesInTheUnit : Obligations.FractionLiesInTheUnit :=
  fun _ hx => ⟨rfl, (frac_between hx).finite, (frac_between hx).zero_le_one⟩

/-! ## A RENDER as a function of what its sources resolve to (R100, R101; 43_engine.md R182, R184) -/

theorem generate_withRend (P : Params) (m : ModeBits) (s : State) (rend : Option Progress) :
    generate P m { s with rend := rend } = { generate P m s with rend := rend } := by
  unfold generate
  split_ifs <;> rfl

/-- A sample step sees of the RENDER in progress only its index and what its sources resolve to there. -/
theorem sampleStep_withRend {P : Params} {pr : Progress} {src' : Sources} (s : State) (rend : Option Progress)
    (hres : resolveAll src' pr.index = resolveAll pr.src pr.index) :
    sampleStep P { pr with src := src' } { s with rend := rend } =
      (sampleStep P pr s).map fun t => { t with rend := some { pr with src := src', index := pr.index + 1 } } := by
  unfold sampleStep
  simp only [hres]
  cases resolveAll pr.src pr.index with
  | none => rfl
  | some r =>
    have hopen : openSample P { s with rend := rend } r = { openSample P s r with rend := rend } := rfl
    simp only [hopen, generate_withRend, Option.map_some]
    rfl

/-- Sample loops whose sources resolve alike end alike, as the RENDER in progress does not outlive the last sample. -/
theorem renderLoop_withRend {P : Params} {k : Nat} {pr : Progress} {src' : Sources} {s : State} {rend : Option Progress}
    (hres : ∀ j < k, resolveAll src' (pr.index + j) = resolveAll pr.src (pr.index + j)) :
    renderLoop P k { pr with src := src' } { s with rend := rend } = renderLoop P k pr s := by
  induction k generalizing pr s rend with
  | zero => rfl
  | succ k ih =>
    unfold renderLoop
    rw [sampleStep_withRend s rend (hres 0 k.succ_pos)]
    cases sampleStep P pr s with
    | none => rfl
    | some t =>
      refine ih (pr := { pr with index := pr.index + 1 }) fun j hj => ?_
      simpa only [Nat.add_right_comm, Nat.add_assoc] using hres (j + 1) (by omega)

/-- The value check of a block looks at resolved values only. -/
theorem firstNonFinite_congr {src src' : Sources} {n : Nat} (h : ∀ p, ∀ k < n, resolve src p k = resolve src' p k) :
    firstNonFinite src n = firstNonFinite src' n := by
  induction n with
  | zero => rfl
  | succ n ih =>
    have hbad : badValue src n = badValue src' n := funext fun p => by
      unfold badValue
      rw [h p n n.lt_succ_self]
    rw [firstNonFinite, firstNonFinite, ih fun p k hk => h p k (by omega), badValueIn, badValueIn, hbad]

/-- Settles O45: every check and every sample step of a RENDER sees resolved values only, once the array lengths are legal. -/
theorem renderDependsOnResolvedValuesOnly : Obligations.RenderDependsOnResolvedValuesOnly := by
  intro s n src src' hlen hlen' hres
  have hloop : renderLoop Config.params n ⟨n, src, 0⟩ (beginRender s n src) =
      renderLoop Config.params n ⟨n, src', 0⟩ (beginRender s n src') :=
    renderLoop_withRend (pr := ⟨n, src', 0⟩) (s := beginRender s n src') fun j hj =>
      resolveAll_congr fun p => hres p _ (by simpa using hj)
  rw [exec_render, exec_render, renderWith, renderWith, firstBadArray_eq_none.mpr hlen, firstBadArray_eq_none.mpr hlen',
    firstNonFinite_congr hres, hloop]

end Sys2Proof.Machine
end

section
/-! PROOFS. The generators (41_generators.md): each meaning as the register writes its rule names, and the exact values of
the formulas where an operand is a zero or two operands are the same, which rounding leaves alone. -/

namespace Sys2Proof.F64

/-! ## Values compared with 0 and 1 -/

/-- A datum that compares within [0, 1] is finite. -/
theorem between_zero_one {x : F64} (h0 : zero.le x = true) (h1 : x.le one = true) : Between zero one x := by
  have hlo := val_le_of_le h0
  have hhi := val_le_of_le h1
  refine ⟨isFinite_of_natAbs_val_le one_isFinite ?_, hlo, hhi⟩
  rw [zero_val] at hlo
  omega

/-! ## Operations that are exact -/

theorem pack_false_zero : pack false 0 = zero := by decide +kernel

theorem magUnits_mag_of_val_eq_zero {x : F64} (h : x.val = 0) : magUnits x.mag = 0 := by
  rw [← natAbs_val, h, Int.natAbs_zero]

/-- The product with a zero is a zero, of either sign. -/
theorem zero_mul_spec {z x : F64} (hz : z.isFinite = true) (h0 : z.val = 0) (hx : x.isFinite = true) :
    (z.mul x).isFinite = true ∧ (z.mul x).val = 0 := by
  rw [mul_finite hz hx, magUnits_mag_of_val_eq_zero h0, Nat.zero_mul, roundMag_zero unitScale_pos,
    isFinite_pack (by norm_num), val_pack_signed (by norm_num), magUnits_zero, signed_zero]
  exact ⟨rfl, rfl⟩

theorem mul_comm_of_finite {x y : F64} (hx : x.isFinite = true) (hy : y.isFinite = true) : x.mul y = y.mul x := by
  rw [mul_finite hx hy, mul_finite hy hx, Nat.mul_comm, bne_comm]

theorem mul_one_of_finite {x : F64} (hx : x.isFinite = true) : x.mul one = x := by
  have hone : magUnits one.mag = unitScale ∧ one.sgn = false := by decide +kernel
  rw [mul_finite hx one_isFinite, hone.1, hone.2, Nat.mul_comm, roundMag_exact unitScale_pos (isFinite_iff.mp hx).le,
    Bool.bne_false, pack_sgn_mag]

/-- Adding a zero to a value of positive sign changes nothing, +0.0 included. -/
theorem add_zero_of_sgn {x z : F64} (hx : x.isFinite = true) (hs : x.sgn = false) (hz : z.isFinite = true)
    (h0 : z.val = 0) : x.add z = x := by
  have hval : (x.add z).val = x.val := val_add_exact hx hz hx (by rw [h0, Int.add_zero])
  by_cases hx0 : x.val = 0
  · rw [add_of_eq hx hz (by omega), hs, Bool.false_and]
    refine (ext_sgn_mag (hs.trans (sgn_pack (by norm_num)).symm) ?_).symm
    rw [mag_pack (by norm_num)]
    exact magUnits_strictMono.injective ((magUnits_mag_of_val_eq_zero hx0).trans magUnits_zero.symm)
  · exact eq_of_val_eq (by rwa [hval]) hval

theorem sub_self_of_finite {x : F64} (hx : x.isFinite = true) : x.sub x = zero := by
  rw [sub_eq_add_neg, add_of_eq hx (by rwa [isFinite_neg]) (by rw [val_neg, Int.add_right_neg]), sgn_neg,
    Bool.and_not_self, pack_false_zero]

/-- A positive difference of finite values does not round to zero. -/
theorem sub_val_pos {x y : F64} (hx : x.isFinite = true) (hy : y.isFinite = true) (hz : (x.sub y).isFinite = true)
    (h : y.val < x.val) : 0 < (x.sub y).val := by
  have hunit : (pack false 1).isFinite = true ∧ (pack false 1).val = 1 := by decide +kernel
  have := (sub_roundsTo hx hy).le_val Nat.one_pos hz hunit.1 (by omega)
  omega

end Sys2Proof.F64

namespace Sys2Proof

theorem Seven.mapStep_fill_eq_fill {α β : Type} {f : Int → α → β} {a : α} {b : β}
    (h : ∀ k : Int, -3 ≤ k → k ≤ 3 → f k a = b) : (Seven.fill a).mapStep f = .fill b := by
  simp [Seven.mapStep, Seven.fill, h]

end Sys2Proof

namespace Sys2Proof.Machine

open F64

/-! ## SAW and PULSE (R131, R132) -/

theorem exec_saw (s : State) : exec .saw s = .next (s.setResult (saw s.smp.p0 s.smp.dt)) := rfl

theorem exec_pulse (s : State) : exec .pulse s = .next (s.setResult (pulse s.smp.p0 s.smp.dt s.smp.pw)) := rfl

/-- Settles O21: the result is the only write, and `two` is the literal 2. -/
theorem sawCompletes : Obligations.SawCompletes := exec_saw

/-- Settles O22: the result is the only write, and the naive pulse is one of the literals 1 and -1. -/
theorem pulseCompletes : Obligations.PulseCompletes := exec_pulse

/-- At the rising edge the corrector is -1, for every increment. -/
theorem polyBlep_zero {dt : F64} (hdt : dt.isFinite = true) (h : zero.lt dt = true) : polyBlep zero dt = negOne := by
  have hrise : blepRise zero = negOne := by decide +kernel
  rw [polyBlep_rise h, zero_div hdt (by simpa using val_lt_of_lt h), hrise]

/-- At the rising edge the corrector cancels the naive saw's -1. -/
theorem saw_zero {dt : F64} (hdt : dt.isFinite = true) (h : zero.lt dt = true) : saw zero dt = zero := by
  have hcancel : ((two.mul zero).sub one).sub negOne = zero := by decide +kernel
  rw [saw, polyBlep_zero hdt h, hcancel]

/-- Settles O26: the naive saw and the corrector are both -1 at phase 0. -/
theorem sawIsZeroAtItsEdge : Obligations.SawIsZeroAtItsEdge := by
  rw [Obligations.SawIsZeroAtItsEdge, ← zero_eq_bits]
  exact fun _ => saw_zero

/-! ## SUPERSAW (R133 to R136) -/

theorem exec_supersaw (s : State) : exec .supersaw s = .next (supersawOp s) := rfl

theorem voiceAdvance_get (sr f det : F64) (ssp : Seven F64) (i : Fin 7) :
    (voiceAdvance sr f det ssp).get i = advance (ssp.get i) (voiceInc sr f (spread det) (i.val - 3)) :=
  Seven.get_mapStep _ ssp i

theorem voiceSaws_get (sr f det : F64) (ssp : Seven F64) (i : Fin 7) :
    (voiceSaws sr f det ssp).get i = saw (ssp.get i) (voiceInc sr f (spread det) (i.val - 3)) :=
  Seven.get_mapStep _ ssp i

/-- The mean of the seven voices, the sum written out in ascending voice. -/
theorem mean_eq (b : Seven F64) :
    mean b = (((((((zero.add (b.get 0)).add (b.get 1)).add (b.get 2)).add (b.get 3)).add (b.get 4)).add (b.get 5)).add
      (b.get 6)).div (ofInt 7) := rfl

/-- Settles O23: each voice is an entry of the two banks, and the mean sums the entries in order. -/
theorem supersawCompletes : Obligations.SupersawCompletes := by
  intro s
  refine ⟨supersawOp s, exec_supersaw s, fun i dtk hdtk => ?_, fun xs hxs => ?_, rfl⟩
  · rw [hdtk, supersawOp_ssp, voiceAdvance_get]
    rfl
  · have hget (i : Fin 7) : xs i = (voiceSaws s.sr s.smp.f s.smp.det s.ssp).get i := by
      rw [hxs, voiceSaws_get]
      rfl
    simp only [hget]
    exact mean_eq _

theorem voiceSaws_fill_zero {sr f det : F64}
    (h : ∀ k : Int, -3 ≤ k → k ≤ 3 → (voiceInc sr f (spread det) k).isFinite = true ∧
      zero.lt (voiceInc sr f (spread det) k) = true) :
    voiceSaws sr f det (.fill zero) = .fill zero :=
  Seven.mapStep_fill_eq_fill fun k hlo hhi => saw_zero (h k hlo hhi).1 (h k hlo hhi).2

/-- Settles O27: every voice starts at its edge, where its saw is 0. -/
theorem supersawOfEqualPhasesStartsAtZero : Obligations.SupersawOfEqualPhasesStartsAtZero := by
  intro sr f det h
  have hmean : mean (.fill zero) = zero := by decide +kernel
  rw [← zero_eq_bits, voiceSaws_fill_zero h, hmean]

/-! ## FM2OP (R137 to R140) -/

theorem exec_fm2op (s : State) : exec .fm2op s = .next (fm2opOp Config.params s) := rfl

/-- Settles O24: the intermediates are those of the modulator, the carrier and the modulator's increment. -/
theorem fm2opCompletes : Obligations.Fm2opCompletes := by
  rintro s r f2 idx modv cp rfl rfl rfl rfl rfl
  exact exec_fm2op s

/-- The modulation index's factor 2 + 10·tim is finite. -/
theorem fmDepthFactor_isFinite {tim : F64} (htim : Between zero one tim) :
    (two.add ((ofInt 10).mul tim)).isFinite = true := by
  have hmul : Between zero (ofInt 10) ((ofInt 10).mul tim) :=
    Between.mul (a := ofInt 10) ⟨by decide +kernel, by decide +kernel, le_rfl⟩ htim (by decide +kernel)
      (by rw [one_val, Int.mul_comm])
  exact (Between.add (a := two) (b := two) (lo := zero) (hi := ofInt 12) ⟨by decide +kernel, le_rfl, le_rfl⟩ hmul
    zero_isFinite (by decide +kernel) (by decide +kernel) (by decide +kernel)).finite

/-- With index 0 the modulator adds a zero to the carrier phase. -/
theorem fmCarrier_of_index_zero {P : Params} {p0 q0 dt tim : F64} (hp : p0.isFinite = true) (hs : p0.sgn = false)
    (hdt : dt.isFinite = true) (htim : Between zero one tim) (hmod : (P.sin (twoPi.mul q0)).isFinite = true) :
    fmCarrier P p0 q0 dt zero tim = p0 := by
  obtain ⟨hdf, hd0⟩ := zero_mul_spec zero_isFinite zero_val (fmDepthFactor_isFinite htim)
  rw [← fmDepth] at hdf hd0
  obtain ⟨hmf, hm0⟩ := zero_mul_spec hdf hd0 hmod
  obtain ⟨hzf, hz0⟩ := zero_mul_spec hmf hm0 hdt
  rw [fmCarrier, mul_comm_of_finite hmod hdf]
  exact add_zero_of_sgn hp hs hzf hz0

/-- Settles O28: index 0 leaves the carrier phase as it is, and its gain 1 + 2·0 is 1. -/
theorem fmWithoutIndexIsAClippedSine : Obligations.FmWithoutIndexIsAClippedSine := by
  intro P p0 q0 dt tim hp hs hdt hlo hhi hmod hsin
  have hgain : one.add (two.mul zero) = one := by decide +kernel
  rw [← zero_eq_bits, fm2op,
    fmCarrier_of_index_zero (inUnit_iff.mp hp).finite hs (inUnit_iff.mp hdt).finite (between_zero_one hlo hhi) hmod, hgain,
    mul_one_of_finite hsin]

/-! ## PDFOLD (R141, R142) -/

theorem exec_pdfold (s : State) :
    exec .pdfold s = .next (s.setResult (pdfold Config.params s.smp.p0 s.smp.fmi s.smp.tim)) := rfl

/-- Settles O25: the intermediates are the breakpoint, the warped phase and the driven sine. -/
theorem pdfoldCompletes : Obligations.PdfoldCompletes := by
  rintro s a w z rfl rfl rfl
  exact exec_pdfold s

/-- Settles O29: the breakpoint takes the second branch, whose numerator p0 - a is an exact 0. -/
theorem warpMeetsAtTheBreakpoint : Obligations.WarpMeetsAtTheBreakpoint := by
  intro a ha h0 h1
  have hlo := val_lt_of_lt h0
  have hhi := val_lt_of_lt h1
  rw [zero_val] at hlo
  rw [one_val] at hhi
  have hden : (one.sub a).isFinite = true :=
    ((sub_roundsTo one_isFinite ha).between Nat.one_pos zero_isFinite one_isFinite (by rw [zero_val, one_val]; omega)
      (by rw [one_val]; omega)).finite
  have hmeet : half.add (zero.mul half) = half := by decide +kernel
  rw [warp, lt_irrefl, if_neg Bool.false_ne_true, sub_self_of_finite ha,
    zero_div hden (sub_val_pos one_isFinite ha hden (val_lt_of_lt h1)), hmeet]

/-! ## The generator of a sample step (R130; 43_engine.md R186) -/

section
variable {s : State} {pr : Progress} (hrend : s.rend = some pr)
include hrend

theorem step_of_rend_some : step s = stepSample s pr := by
  rw [step, hrend]

theorem step_of_unresolved (h : resolveAll pr.src pr.index = none) : step s = .fault .renderOperands := by
  simp only [step_of_rend_some hrend, stepSample, h]

theorem step_of_resolved {r : Resolved} {i : Instr} {u : State} (h : resolveAll pr.src pr.index = some r)
    (hdec : decodeMode (modeCode r.mode) = .ok i) (hexec : exec i (openSample Config.params s r) = .next u) :
    step s = .next (afterGenerator pr u) := by
  simp only [step_of_rend_some hrend, stepSample, h, hdec, hexec]

end

/-- Settles O50: a mode code always decodes to a generator, and a generator always completes. -/
theorem stepRunsTheSelectedGenerator : Obligations.StepRunsTheSelectedGenerator := by
  refine fun s pr hrend => ⟨fun r hr => ?_, step_of_unresolved hrend⟩
  obtain ⟨i, hdec, hexec⟩ := exec_of_modeCode r.mode
  exact ⟨i, _, hdec, hexec _, step_of_resolved hrend hr hdec (hexec _)⟩

end Sys2Proof.Machine
end

section
/-! PROOFS. Post-processing (42_postprocess.md): rounding a magnitude loses at most a 2^53rd part of it, so the clipper's
denominator, rounded twice, is hardly less than 1.5 times its input; the DC blocker's sums with a zero are exact. -/

namespace Sys2Proof.F64

/-! ## Signs -/

theorem neg_pack {b : Bool} {c : Nat} (h : c < 2 ^ 63) : (pack b c).neg = pack (!b) c :=
  ext_sgn_mag (by rw [sgn_neg, sgn_pack h, sgn_pack h]) (by rw [mag_neg, mag_pack h, mag_pack h])

theorem isNaN_pack_of_le {b : Bool} {c : Nat} (h : c ≤ infMag) : (pack b c).isNaN = false := by
  rw [isNaN_pack (h.trans_lt infMag_lt), decide_eq_false h.not_gt]

@[simp] theorem isFinite_abs (x : F64) : x.abs.isFinite = x.isFinite := by simp [isFinite]

theorem mag_le_infMag {x : F64} (h : x.isNaN = false) : x.mag ≤ infMag := by simpa [isNaN] using h

/-- The sum of two values of positive sign, the second possibly an infinity: what exceeds one rounds to its code. -/
theorem add_of_sgn_false {x y : F64} (hx : x.isFinite = true) (hxs : x.sgn = false) (hy : y.isNaN = false)
    (hys : y.sgn = false) : x.add y = pack false (roundMag (magUnits x.mag + magUnits y.mag) 1) := by
  rcases (mag_le_infMag hy).lt_or_eq with hlt | heq
  · have hyf := isFinite_iff.mpr hlt
    have hsum : x.val + y.val = (magUnits x.mag + magUnits y.mag : Nat) := by
      rw [val_eq_signed, val_eq_signed, hxs, hys, signed_false, signed_false, Nat.cast_add]
    by_cases h : x.val + y.val = 0
    · rw [add_of_eq hx hyf h, hxs, show magUnits x.mag + magUnits y.mag = 0 by omega, roundMag_zero Nat.one_pos,
        Bool.false_and]
    · rw [add_of_ne hx hyf h, hsum, roundInt, Int.natAbs_natCast, decide_eq_false (Int.natCast_nonneg _).not_gt]
  · have hinf : roundMag (magUnits x.mag + magUnits y.mag) 1 = infMag :=
      (roundMag_le_infMag _ _).antisymm (le_roundMag_of_le Nat.one_pos le_rfl (by rw [heq]; omega))
    have hyi : y.isInf = true := decide_eq_true heq
    rw [hinf, ← heq, ← hys, pack_sgn_mag]
    simp [add, isNaN_of_isFinite hx, isInf_of_isFinite hx, hy, hyi]

/-- A finite value over an infinity is a zero. -/
theorem div_of_isInf {x y : F64} (hx : x.isFinite = true) (hy : y.mag = infMag) :
    x.div y = pack (x.sgn != y.sgn) 0 := by
  have hn : y.isNaN = false := decide_eq_false (by omega)
  have hi : y.isInf = true := decide_eq_true hy
  simp [div, isNaN_of_isFinite hx, isInf_of_isFinite hx, hn, hi]

/-- The sign of a quotient is inverted with that of its dividend. -/
theorem neg_div {x y : F64} (hx : x.isFinite = true) (hy : y.isNaN = false) (h0 : y.mag ≠ 0) :
    x.neg.div y = (x.div y).neg := by
  have hxn : x.neg.isFinite = true := by rwa [isFinite_neg]
  have hsgn : (x.neg.sgn != y.sgn) = !(x.sgn != y.sgn) := by rw [sgn_neg, Bool.not_bne]
  rcases (mag_le_infMag hy).lt_or_eq with hlt | heq
  · have hyf := isFinite_iff.mpr hlt
    rw [div_finite hxn hyf h0, div_finite hx hyf h0, neg_pack (roundMag_lt _ _), hsgn, mag_neg]
  · rw [div_of_isInf hxn heq, div_of_isInf hx heq, neg_pack (by norm_num), hsgn]

/-! ## The relative error of rounding -/

/-- The midpoint above a full significand exceeds it by at most a 2^53rd part. -/
theorem midpoint_mul_le {m : Nat} (h : 2 ^ 52 ≤ m) : (2 * m + 1) * (2 ^ 53 - 1) ≤ 2 * (m * 2 ^ 53) := by omega

/-- Above the lowest binade, rounding to a finite value loses at most a 2^53rd part. -/
theorem mul_le_mul_roundMag {p q : Nat} (hq : 0 < q) (hfin : roundMag p q < infMag) (hp : q * 2 ^ 52 ≤ p) :
    p * (2 ^ 53 - 1) ≤ q * magUnits (roundMag p q) * 2 ^ 53 := by
  obtain ⟨c, hb, ⟨-, hr⟩ | ⟨hdown, hr⟩⟩ := roundMag_spec_of_lt hq hfin
  · rw [hr]
    exact Nat.mul_le_mul hb.lt.le (Nat.sub_le _ _)
  · obtain ⟨k, m, rfl, hm, hk⟩ := magUnits_cases c
    have hlt := hb.lt
    rw [magUnits_succ hm hk] at hlt
    have hm52 : 2 ^ 52 ≤ m := by
      rcases hk with rfl | hk
      · have := Nat.lt_of_mul_lt_mul_left (hp.trans_lt hlt)
        omega
      · exact hk
    have hmid : 2 * p ≤ q * 2 ^ k * (2 * m + 1) := by
      have := Nat.le_of_not_lt (not_or.mp hdown).1
      rw [magUnits_succ hm hk, magUnits_shift hm.le hk] at this
      linarith
    rw [hr, magUnits_shift hm.le hk]
    refine Nat.le_of_mul_le_mul_left (c := 2) ?_ two_pos
    calc 2 * (p * (2 ^ 53 - 1)) = 2 * p * (2 ^ 53 - 1) := by ring
      _ ≤ q * 2 ^ k * (2 * m + 1) * (2 ^ 53 - 1) := Nat.mul_le_mul_right _ hmid
      _ = q * 2 ^ k * ((2 * m + 1) * (2 ^ 53 - 1)) := by ring
      _ ≤ q * 2 ^ k * (2 * (m * 2 ^ 53)) := Nat.mul_le_mul_left _ (midpoint_mul_le hm52)
      _ = 2 * (q * (m * 2 ^ k) * 2 ^ 53) := by ring

end Sys2Proof.F64

namespace Sys2Proof.Machine

open F64

/-! ## The soft clipper (R160, R161) -/

/-- The magnitude bits of the clipper's product `1.5 * abs(x)`. -/
def clipProductMag (x : F64) : Nat := roundMag (magUnits clipGain.mag * magUnits x.mag) unitScale

/-- The magnitude bits of the clipper's denominator `1 + 1.5 * abs(x)`. -/
def clipDenMag (x : F64) : Nat := roundMag (unitScale + magUnits (clipProductMag x)) 1

theorem clipProductMag_le_infMag (x : F64) : clipProductMag x ≤ infMag := roundMag_le_infMag _ _

theorem clipDenMag_le_infMag (x : F64) : clipDenMag x ≤ infMag := roundMag_le_infMag _ _

theorem clipDenMag_lt (x : F64) : clipDenMag x < 2 ^ 63 := roundMag_lt _ _

theorem clipDenominator_eq {x : F64} (hx : x.isFinite = true) :
    one.add (clipGain.mul x.abs) = pack false (clipDenMag x) := by
  have hgain : clipGain.isFinite = true ∧ clipGain.sgn = false := by decide +kernel
  have hone : one.sgn = false ∧ magUnits one.mag = unitScale := by decide +kernel
  have hprod : clipGain.mul x.abs = pack false (clipProductMag x) := by
    rw [mul_finite hgain.1 (by rwa [isFinite_abs]), hgain.2, sgn_abs, mag_abs, bne_self_eq_false, clipProductMag]
  have hle := clipProductMag_le_infMag x
  have hlt := hle.trans_lt infMag_lt
  rw [hprod, add_of_sgn_false one_isFinite hone.1 (isNaN_pack_of_le hle) (sgn_pack hlt), hone.2, mag_pack hlt, clipDenMag]

theorem softClip_eq {x : F64} (hx : x.isFinite = true) : softClip x = x.div (pack false (clipDenMag x)) := by
  rw [softClip, clipDenominator_eq hx]

/-- The denominator is at least 1. -/
theorem unitScale_le_clipDen (x : F64) : unitScale ≤ magUnits (clipDenMag x) := by
  have hone : magUnits one.mag = unitScale ∧ one.mag ≤ infMag := by decide +kernel
  rw [← hone.1, magUnits_le_iff]
  exact le_roundMag_of_le Nat.one_pos hone.2 (by omega)

theorem clipDenMag_ne_zero (x : F64) : clipDenMag x ≠ 0 :=
  (magUnits_pos.mp (unitScale_pos.trans_le (unitScale_le_clipDen x))).ne'

theorem clipDenMag_neg (x : F64) : clipDenMag x.neg = clipDenMag x := by
  simp only [clipDenMag, clipProductMag, mag_neg]

theorem softClip_neg {x : F64} (hx : x.isFinite = true) : softClip x.neg = (softClip x).neg := by
  have hne : (pack false (clipDenMag x)).mag ≠ 0 := by
    rw [mag_pack (clipDenMag_lt x)]
    exact clipDenMag_ne_zero x
  rw [softClip_eq hx, softClip_eq (by rwa [isFinite_neg]), clipDenMag_neg,
    neg_div hx (isNaN_pack_of_le (clipDenMag_le_infMag x)) hne]

theorem clipProductMag_lt_infMag {x : F64} (hfin : clipDenMag x < infMag) : clipProductMag x < infMag :=
  lt_of_le_of_ne (clipProductMag_le_infMag x) fun h =>
    hfin.not_ge (le_roundMag_of_le Nat.one_pos le_rfl (by rw [h, Nat.one_mul]; exact Nat.le_add_left _ _))

/-- The product loses at most a 2^53rd part of 1.5·|x| in its rounding. -/
theorem three_mul_le_clipProduct {x : F64} (hfin : clipProductMag x < infMag) (hx : 2 ^ 52 ≤ magUnits x.mag) :
    3 * magUnits x.mag * (2 ^ 53 - 1) ≤ magUnits (clipProductMag x) * 2 ^ 54 := by
  have hgain : 2 * magUnits clipGain.mag = 3 * unitScale := by decide +kernel
  have hround := mul_le_mul_roundMag unitScale_pos hfin (by nlinarith)
  refine Nat.le_of_mul_le_mul_left (c := unitScale) ?_ unitScale_pos
  calc unitScale * (3 * magUnits x.mag * (2 ^ 53 - 1)) = 3 * unitScale * magUnits x.mag * (2 ^ 53 - 1) := by ring
    _ = 2 * (magUnits clipGain.mag * magUnits x.mag * (2 ^ 53 - 1)) := by rw [← hgain]; ring
    _ ≤ 2 * (unitScale * magUnits (clipProductMag x) * 2 ^ 53) := Nat.mul_le_mul_left _ hround
    _ = unitScale * (magUnits (clipProductMag x) * 2 ^ 54) := by ring

/-- The denominator loses at most a 2^53rd part of the product, the term 1 left aside. -/
theorem clipProduct_le_clipDen {x : F64} (hfin : clipDenMag x < infMag) :
    magUnits (clipProductMag x) * (2 ^ 53 - 1) ≤ magUnits (clipDenMag x) * 2 ^ 53 := by
  have hU : 2 ^ 52 ≤ unitScale := by decide +kernel
  have hround := mul_le_mul_roundMag Nat.one_pos hfin (by rw [Nat.one_mul]; exact hU.trans (Nat.le_add_right _ _))
  rw [← clipDenMag, Nat.one_mul] at hround
  exact (Nat.mul_le_mul_right _ (Nat.le_add_left _ _)).trans hround

theorem three_mul_le_clipDen {x : F64} (hfin : clipDenMag x < infMag) (hx : 2 ^ 52 ≤ magUnits x.mag) :
    3 * magUnits x.mag * (2 ^ 53 - 1) ^ 2 ≤ magUnits (clipDenMag x) * 2 ^ 107 :=
  calc 3 * magUnits x.mag * (2 ^ 53 - 1) ^ 2 = 3 * magUnits x.mag * (2 ^ 53 - 1) * (2 ^ 53 - 1) := by ring
    _ ≤ magUnits (clipProductMag x) * 2 ^ 54 * (2 ^ 53 - 1) :=
      Nat.mul_le_mul_right _ (three_mul_le_clipProduct (clipProductMag_lt_infMag hfin) hx)
    _ = magUnits (clipProductMag x) * (2 ^ 53 - 1) * 2 ^ 54 := by ring
    _ ≤ magUnits (clipDenMag x) * 2 ^ 53 * 2 ^ 54 := Nat.mul_le_mul_right _ (clipProduct_le_clipDen hfin)
    _ = magUnits (clipDenMag x) * 2 ^ 107 := by ring

/-- The magnitude bits of the second binary64 number above the one nearest to 2/3. -/
def clipBoundMag : Nat := 0x3FE5555555555557

/-- The bound is far enough above 2/3 for the two roundings of the denominator, and within 2^-52 of 2/3. -/
theorem clipBound_spec : clipBoundMag ≤ infMag ∧ 2 ^ 52 ≤ magUnits clipBoundMag ∧
    unitScale * 2 ^ 107 ≤ magUnits clipBoundMag * (3 * (2 ^ 53 - 1) ^ 2) ∧
    3 * magUnits clipBoundMag ≤ 2 * unitScale + 3 * 2 ^ 1022 := by decide +kernel

/-- Below the bound the denominator, at least 1, suffices; above it, its part 1.5·|x|. -/
theorem mul_unitScale_le_clipDen {x : F64} (hfin : clipDenMag x < infMag) :
    magUnits x.mag * unitScale ≤ magUnits (clipDenMag x) * magUnits clipBoundMag := by
  obtain ⟨-, hbig, hratio, -⟩ := clipBound_spec
  rcases Nat.le_total (magUnits x.mag) (magUnits clipBoundMag) with hle | hge
  · rw [Nat.mul_comm]
    exact Nat.mul_le_mul (unitScale_le_clipDen x) hle
  · have hden := three_mul_le_clipDen hfin (hbig.trans hge)
    refine Nat.le_of_mul_le_mul_right (c := 2 ^ 107) ?_ (by norm_num)
    calc magUnits x.mag * unitScale * 2 ^ 107 = magUnits x.mag * (unitScale * 2 ^ 107) := by ring
      _ ≤ magUnits x.mag * (magUnits clipBoundMag * (3 * (2 ^ 53 - 1) ^ 2)) := Nat.mul_le_mul_left _ hratio
      _ = 3 * magUnits x.mag * (2 ^ 53 - 1) ^ 2 * magUnits clipBoundMag := by ring
      _ ≤ magUnits (clipDenMag x) * 2 ^ 107 * magUnits clipBoundMag := Nat.mul_le_mul_right _ hden
      _ = magUnits (clipDenMag x) * magUnits clipBoundMag * 2 ^ 107 := by ring

theorem softClip_mag_le {x : F64} (hx : x.isFinite = true) : (softClip x).mag ≤ clipBoundMag := by
  have hmag := mag_pack (b := false) (clipDenMag_lt x)
  rw [softClip_eq hx]
  rcases (clipDenMag_le_infMag x).lt_or_eq with hlt | heq
  · have hfin : (pack false (clipDenMag x)).isFinite = true := isFinite_iff.mpr (by rwa [hmag])
    rw [div_finite hx hfin (by rw [hmag]; exact clipDenMag_ne_zero x), mag_pack (roundMag_lt _ _), hmag]
    exact roundMag_le_of_le (magUnits_pos.mpr (Nat.pos_of_ne_zero (clipDenMag_ne_zero x))) clipBound_spec.1
      (mul_unitScale_le_clipDen hlt)
  · rw [div_of_isInf hx (hmag.trans heq), mag_pack (by norm_num)]
    exact Nat.zero_le _

/-- Settles O30: the quotient's sign is that of x, and its exact value is at most the second number above 2/3. -/
theorem softClipIsOddAndBounded : Obligations.SoftClipIsOddAndBounded := by
  refine fun x hx => ⟨rfl, softClip_neg hx, ?_⟩
  obtain ⟨-, -, -, hbound⟩ := clipBound_spec
  rw [natAbs_val]
  exact (Nat.mul_le_mul_left 3 (magUnits_le_iff.mpr (softClip_mag_le hx))).trans hbound

/-! ## The DC blocker (R162, R163) -/

theorem dcPole_mul_isFinite {y : F64} (hy : y.isFinite = true) : (dcPole.mul y).isFinite = true := by
  have hpole : dcPole.isFinite = true ∧ dcPole.val.natAbs ≤ unitScale := by decide +kernel
  refine (mul_roundsTo hpole.1 hy).isFinite unitScale_pos hy ?_
  rw [Int.natAbs_mul]
  exact Nat.mul_le_mul_right _ hpole.2

/-- An unchanged input contributes nothing to the output. -/
theorem dcOutput_same_val {c y : F64} (hc : c.isFinite = true) (hy : y.isFinite = true) :
    (dcOutput c y c).val = (dcPole.mul y).val := by
  have hp := dcPole_mul_isFinite hy
  rw [dcOutput, sub_self_of_finite hc]
  exact val_add_exact zero_isFinite hp hp (by rw [zero_val, Int.zero_add])

/-- From the state (0, 0) the input comes through whole. -/
theorem dcOutput_zero_val {c : F64} (hc : c.isFinite = true) : (dcOutput zero zero c).val = c.val := by
  have hsub : (c.sub zero).val = c.val := by
    rw [sub_eq_add_neg]
    exact val_add_exact hc (by rw [isFinite_neg]; exact zero_isFinite) hc (by rw [val_neg, zero_val]; omega)
  have hpole : dcPole.mul zero = zero := by decide +kernel
  rw [dcOutput, hpole, ← hsub]
  have hf := isFinite_of_natAbs_val_le hc (congrArg Int.natAbs hsub).le
  exact val_add_exact hf zero_isFinite hf (by rw [zero_val, Int.add_zero])

/-- Settles O31: the difference of equal inputs and the product with a zero are exact zeros. -/
theorem constantInputDecays : Obligations.ConstantInputDecays := by
  intro c y hc hy
  rw [← zero_eq_bits]
  exact ⟨dcOutput_same_val hc hy, dcOutput_zero_val hc⟩

end Sys2Proof.Machine
end

section
/-! PROOFS. The encoder undoes the decoder (30_encoding.md R70 to R81). -/

namespace Sys2Proof

/-- A command that decodes is the encoding of its instruction, or it carries no assigned word. -/
theorem encode_of_decodeCommand {c : Command} {i : Instr} (h : decodeCommand c = .ok i) :
    (cmdKind c.word ≠ .unrecognised ∧ i.WellFormed = true ∧ encode i = .command c) ∨
      (cmdKind c.word = .unrecognised ∧ i = .unrecognised c.word) := by
  obtain ⟨w, ops⟩ := c
  obtain ⟨hinit, hrender, hreset, -⟩ := commandWordsDecodeAsTabled w
  cases hk : cmdKind w with
  | init =>
    simp only [decodeCommand, hk] at h
    cases ops <;> cases h
    exact .inl ⟨nofun, rfl, by rw [hinit.mp hk]; rfl⟩
  | render =>
    simp only [decodeCommand, hk] at h
    cases ops <;> cases h
    exact .inl ⟨nofun, rfl, by rw [hrender.mp hk]; rfl⟩
  | reset =>
    simp only [decodeCommand, hk] at h
    cases ops <;> cases h
    exact .inl ⟨nofun, rfl, by rw [hreset.mp hk]; rfl⟩
  | unrecognised => exact .inr ⟨rfl, Except.ok.inj (h.symm.trans (decodeCommand_unrecognised hk))⟩

theorem wellFormed_unrecognised {w : CmdWord} (h : cmdKind w = .unrecognised) :
    (Instr.unrecognised w).WellFormed = true := by
  obtain ⟨-, -, -, hunrec⟩ := commandWordsDecodeAsTabled w
  obtain ⟨h1, h2, h10⟩ := hunrec.mp h
  simp [Instr.WellFormed, assignedWords, h1, h2, h10]

theorem encode_of_decodeMode {m : ModeBits} {i : Instr} (h : decodeMode m = .ok i) :
    i.WellFormed = true ∧ encode i = .mode m := by
  unfold decodeMode at h
  split_ifs at h <;> cases h <;> simp_all [Instr.WellFormed, encode]

/-- Settles O3: an assigned word comes back with its record, an unrecognised one with the empty record. -/
theorem encodeDecodeAgree : Obligations.EncodeDecodeAgree := by
  refine ⟨fun c i h => ?_, fun m i => encode_of_decodeMode⟩
  rcases encode_of_decodeCommand h with ⟨-, hwf, henc⟩ | ⟨hk, rfl⟩
  · exact ⟨hwf, c.ops, henc, fun _ => rfl⟩
  · exact ⟨wellFormed_unrecognised hk, .empty, rfl, fun hne => absurd hk hne⟩

end Sys2Proof
end

section
/-! PROOFS. The commands that answer in one go (43_engine.md R189 to R196): the faulted core's answer, INIT's checks and
writes, RESET and UNRECOGNISED. -/

namespace Sys2Proof

theorem Seven.forall_mem_toList {α : Type} {b : Seven α} {p : α → Prop} :
    (∀ a ∈ b.toList, p a) ↔ ∀ i, p (b.get i) := by
  refine ⟨fun h i => h _ (b.get_mem_toList i), fun h => ?_⟩
  simpa [Seven.toList] using ⟨h 0, h 1, h 2, h 3, h 4, h 5, h 6⟩

namespace Machine

/-! ## The faulted core (R189) -/

theorem renderWith_faulted {P : Params} {n : Nat} {src : Sources} {s : State} (hf : s.fault ≠ .noFault) :
    renderWith P n src s = .next (s.respondFaulted (some false)) := if_pos hf

/-- Every command's answer on a faulted core. -/
theorem exec_command_faulted {c : Command} {i : Instr} {s : State} (hdec : decodeCommand c = .ok i)
    (hf : s.fault ≠ .noFault) : ∃ ka, exec i s = .next (s.respondFaulted ka) := by
  rcases decodeCommand_cases hdec with ⟨rate, off, rfl⟩ | ⟨n, src, rfl⟩ | rfl | rfl
  · exact ⟨none, by rw [exec_init, State.unlessFaulted_faulted hf]⟩
  · exact ⟨some false, renderWith_faulted hf⟩
  · exact ⟨none, by rw [exec_reset, State.unlessFaulted_faulted hf]⟩
  · exact ⟨none, by rw [exec_unrecognised, State.unlessFaulted_faulted hf]⟩

/-- Settles O38: the guard of each command answers before its body. -/
theorem faultedCoreOnlyAnswers : Obligations.FaultedCoreOnlyAnswers := by
  intro s hf
  refine ⟨fun rate off => ?_, fun n src => renderWith_faulted hf, ?_, fun w => ?_⟩
  · rw [exec_init, State.unlessFaulted_faulted hf]
    rfl
  · rw [exec_reset, State.unlessFaulted_faulted hf]
    rfl
  · rw [exec_unrecognised, State.unlessFaulted_faulted hf]
    rfl

/-! ## INIT (R190 to R193) -/

theorem offsetsOk_iff {off : Seven F64} : offsetsOk off = true ↔
    ∀ i, (off.get i).isFinite = true ∧ F64.zero.le (off.get i) = true ∧ (off.get i).lt .one = true := by
  rw [offsetsOk, List.all_eq_true, Seven.forall_mem_toList]
  simp only [F64.inUnit, Bool.and_eq_true, and_assoc]

theorem exec_init_valid {s : State} {rate : F64} {off : Seven F64} (hf : s.fault = .noFault) (hrate : rateOk rate = true)
    (hoff : offsetsOk off = true) : exec (.init rate off) s = .next ((createVoice s rate off).respond .ok none) := by
  rw [exec_init, State.unlessFaulted_ok hf, initBody, hrate, hoff, Bool.and_self, if_pos rfl]

theorem exec_init_invalid {s : State} {rate : F64} {off : Seven F64} (hf : s.fault = .noFault)
    (h : ¬(rateOk rate = true ∧ offsetsOk off = true)) :
    exec (.init rate off) s = .next (s.respond .initRejected none) := by
  rw [exec_init, State.unlessFaulted_ok hf, initBody, if_neg (by rwa [Bool.and_eq_true])]

/-- Settles O33: the checks of INIT are the validity the rule writes out, and its writes are those of the voice it creates. -/
theorem initFollowsItsProcedure : Obligations.InitFollowsItsProcedure := by
  intro s rate off valid hf hvalid
  rw [← and_assoc, ← offsetsOk_iff, ← Bool.and_eq_true, ← rateOk] at hvalid
  rw [← F64.zero_eq_bits, hvalid]
  exact ⟨fun ⟨hrate, hoff⟩ => exec_init_valid hf hrate hoff, exec_init_invalid hf⟩

/-- Settles O34: a valid INIT writes every register of the record but FAULT, FINFO and NMAX. -/
theorem initForgetsTheOldVoice : Obligations.InitForgetsTheOldVoice := by
  intro s u rate off hs hu hfinfo hnmax hrate hoff
  exact ⟨_, _, exec_init_valid hs hrate hoff, exec_init_valid hu hrate hoff,
    ⟨rfl, rfl, rfl, rfl, rfl, rfl, rfl, hs.trans hu.symm, hfinfo, hnmax⟩, rfl⟩

/-! ## RESET and UNRECOGNISED (R194 to R196) -/

theorem resetBody_initialised {s : State} (h : s.initd = true) :
    resetBody s = (s.setPhases (.fill .zero)).respond .ok none := if_pos h

theorem resetBody_uninitialised {s : State} (h : s.initd = false) : resetBody s = s.respond .ignored none := by
  rw [resetBody, h, if_neg Bool.false_ne_true]

/-- Settles O35: both answers of RESET's body. -/
theorem resetZeroesPhasesOnly : Obligations.ResetZeroesPhasesOnly := by
  intro s hf
  rw [exec_reset, State.unlessFaulted_ok hf, ← F64.zero_eq_bits]
  exact ⟨fun h => by rw [resetBody_initialised h]; rfl, fun h => by rw [resetBody_uninitialised h]; rfl⟩

theorem resetBody_fault (s : State) : (resetBody s).fault = s.fault := by
  unfold resetBody
  split_ifs <;> rfl

theorem resetBody_resetBody (s : State) : resetBody (resetBody s) = resetBody s := by
  cases h : s.initd with
  | true =>
    rw [resetBody_initialised h]
    exact resetBody_initialised h
  | false =>
    rw [resetBody_uninitialised h]
    exact resetBody_uninitialised h

/-- Settles O36: the guard's answer and the body's are each what they would be again. -/
theorem resetTwiceIsResetOnce : Obligations.ResetTwiceIsResetOnce := by
  refine fun s => ⟨_, exec_reset s, ?_⟩
  rw [exec_reset]
  by_cases hf : s.fault = .noFault
  · rw [State.unlessFaulted_ok hf, State.unlessFaulted_ok ((resetBody_fault s).trans hf), resetBody_resetBody]
  · rw [State.unlessFaulted_faulted hf, State.unlessFaulted_faulted (s := s.respondFaulted none) hf]
    rfl

/-- Settles O37: the body of UNRECOGNISED is its answer. -/
theorem unrecognisedIsIgnored : Obligations.UnrecognisedIsIgnored := by
  intro s w hf
  rw [exec_unrecognised, State.unlessFaulted_ok hf]
  rfl

end Machine

end Sys2Proof
end

section
/-! PROOFS. RENDER (43_engine.md R181 to R189; R197): its procedure as one equation per case of R226, the checks' answers by
the lowest offender, and what a sample loop writes, keeps and reads. -/

namespace Sys2Proof

namespace Param

theorem all_split (p : Param) : ∃ as bs, all = as ++ p :: bs ∧ ∀ q ∈ as, q.index < p.index :=
  ⟨all.take p.index, all.drop (p.index + 1), by cases p <;> decide⟩

/-- The search over the parameters answers the lowest one that satisfies it. -/
theorem find?_all_eq_some {b : Param → Bool} {p : Param} (hp : b p = true)
    (hlow : ∀ q : Param, q.index < p.index → b q = false) : all.find? b = some p := by
  obtain ⟨as, bs, hsplit, has⟩ := all_split p
  exact List.find?_eq_some_iff_append.mpr ⟨hp, as, bs, hsplit, fun q hq => by rw [hlow q (has q hq)]; rfl⟩

end Param

namespace Machine

/-! ## The procedure (R181; 60_exceptions.md R226) -/

section
variable {P : Params} {n : Nat} {src : Sources} {s : State}

variable (hf : s.fault = .noFault)
include hf

theorem renderWith_tooLong (hn : s.nmax < n) : renderWith P n src s = .next (s.raiseFault .blockLength 7 0) := by
  rw [renderWith, if_neg (not_not.mpr hf), if_pos hn]

variable (hn : n ≤ s.nmax)
include hn

theorem renderWith_uninitialised (hi : s.initd = false) :
    renderWith P n src s = .next ((s.writeSilence n).respond .silentNotInit (some true)) := by
  rw [renderWith, if_neg (not_not.mpr hf), if_neg hn.not_gt, if_pos hi]

variable (hi : s.initd = true)
include hi

theorem renderWith_badArray {p : Param} (hlen : firstBadArray n src = some p) :
    renderWith P n src s = .next (s.raiseFault .arrayLength p.index 0) := by
  rw [renderWith, if_neg (not_not.mpr hf), if_neg hn.not_gt, hi, if_neg Bool.true_eq_false.mp, hlen]

theorem renderWith_nonFinite {p : Param} {k : Nat} (hlen : firstBadArray n src = none)
    (hfin : firstNonFinite src n = some (p, k)) :
    renderWith P n src s = .next (s.raiseFault .nonFinite p.index k) := by
  rw [renderWith, if_neg (not_not.mpr hf), if_neg hn.not_gt, hi, if_neg Bool.true_eq_false.mp, hlen, hfin]

/-- A block that passes its checks runs its sample loop to the end. -/
theorem renderWith_completes_ok (hlen : firstBadArray n src = none) (hfin : firstNonFinite src n = none) :
    ∃ t, renderWith P n src s = .next t ∧ renderLoop P n ⟨n, src, 0⟩ (beginRender s n src) = .next t := by
  obtain ⟨t, ht⟩ := renderLoop_completes P (k := n) (pr := ⟨n, src, 0⟩) (beginRender s n src)
    fun j hj => by simpa using exists_resolveAll hlen hfin hj
  exact ⟨t, (renderWith_ok hf hn hi hlen hfin).trans ht, ht⟩

end

/-- RENDER answers a next state from every state and for all operands. -/
theorem renderWith_completes (P : Params) (n : Nat) (src : Sources) (s : State) : ∃ t, renderWith P n src s = .next t := by
  by_cases hf : s.fault = .noFault
  case neg => exact ⟨_, renderWith_faulted hf⟩
  rcases Nat.lt_or_ge s.nmax n with hn | hn
  · exact ⟨_, renderWith_tooLong hf hn⟩
  cases hi : s.initd with
  | false => exact ⟨_, renderWith_uninitialised hf hn hi⟩
  | true =>
    cases hlen : firstBadArray n src with
    | some p => exact ⟨_, renderWith_badArray hf hn hi hlen⟩
    | none =>
      cases hfin : firstNonFinite src n with
      | some pk => exact ⟨_, renderWith_nonFinite hf hn hi hlen hfin⟩
      | none =>
        obtain ⟨t, ht, -⟩ := renderWith_completes_ok (P := P) hf hn hi hlen hfin
        exact ⟨t, ht⟩

/-! ## The lowest offender (R182, R184) -/

theorem badArray_eq_false {n : Nat} {src : Sources} {p : Param} :
    badArray n src p = false ↔ (src.get p).arr.length ≤ 1 ∨ (src.get p).arr.length = n := by
  rw [badArray, decide_eq_false_iff_not, arrayLen]
  omega

theorem firstBadArray_eq_some {n : Nat} {src : Sources} {p : Param} (h1 : 1 < (src.get p).arr.length)
    (hne : (src.get p).arr.length ≠ n)
    (hlow : ∀ q : Param, q.index < p.index → (src.get q).arr.length ≤ 1 ∨ (src.get q).arr.length = n) :
    firstBadArray n src = some p :=
  Param.find?_all_eq_some (decide_eq_true ⟨h1, hne⟩) fun q hq => badArray_eq_false.mpr (hlow q hq)

theorem badValue_eq_true {src : Sources} {p : Param} {k : Nat} {v : F64} (hv : resolve src p k = some v)
    (hfin : v.isFinite = false) : badValue src k p = true := by
  simp only [badValue, hv, hfin, Bool.not_false]

theorem badValue_eq_false {src : Sources} {p : Param} {k : Nat}
    (h : ∀ v, resolve src p k = some v → v.isFinite = true) : badValue src k p = false := by
  unfold badValue
  cases hv : resolve src p k with
  | none => rfl
  | some v => simp only [h v hv, Bool.not_true]

/-- A non-finite value found in a block is the one found in every longer block. -/
theorem firstNonFinite_mono {src : Sources} {m n : Nat} {pk : Param × Nat} (hmn : m ≤ n)
    (h : firstNonFinite src m = some pk) : firstNonFinite src n = some pk := by
  induction n, hmn using Nat.le_induction with
  | base => exact h
  | succ n _ ih => rw [firstNonFinite, ih, Option.some_or]

theorem firstNonFinite_eq_some {src : Sources} {n k : Nat} {p : Param} {v : F64} (hk : k < n)
    (hv : resolve src p k = some v) (hfin : v.isFinite = false)
    (hlow : ∀ j q w, j < k ∨ (j = k ∧ q.index < p.index) → resolve src q j = some w → w.isFinite = true) :
    firstNonFinite src n = some (p, k) := by
  have hbefore : firstNonFinite src k = none :=
    firstNonFinite_eq_none.mpr fun j hj q w => hlow j q w (.inl hj)
  have hfind : Param.all.find? (badValue src k) = some p :=
    Param.find?_all_eq_some (badValue_eq_true hv hfin) fun q hq => badValue_eq_false fun w => hlow k q w (.inr ⟨rfl, hq⟩)
  refine firstNonFinite_mono hk ?_
  rw [firstNonFinite, hbefore, Option.none_or, badValueIn, hfind, Option.map_some]

/-- Settles O39: each check answers the lowest offender the rule names, and a fault is its own three writes. -/
theorem renderFaultsOnOperandsOutsideItsContract : Obligations.RenderFaultsOnOperandsOutsideItsContract := by
  intro s n src hf
  refine ⟨renderWith_tooLong hf, fun p hn hi h1 hne hlow => ?_, fun p k v hn hi hlen hk hv hfin hlow => ?_⟩
  · exact renderWith_badArray hf hn hi (firstBadArray_eq_some h1 hne hlow)
  · exact renderWith_nonFinite hf hn hi (firstBadArray_eq_none.mpr hlen) (firstNonFinite_eq_some hk hv hfin hlow)

/-! ## Silence (R183) -/

/-- Settles O40: silence writes the output block and nothing else. -/
theorem renderBeforeInitIsSilent : Obligations.RenderBeforeInitIsSilent := by
  intro s n src hf hn hi
  refine ⟨_, renderWith_uninitialised hf hn hi, ?_, fun k => ?_⟩
  · rw [s.writeSilence_eq n]
    rfl
  · rw [State.respond_out, s.writeSilence_read, F64.zero_eq_bits]

/-! ## What a sample loop writes and keeps (R185 to R187; 10_state.md R26) -/

/-- What each sample step and the end of the RENDER keep, the sample loop keeps. -/
theorem renderLoop_keeps {α : Type} (f : State → α) {P : Params} {k : Nat} {pr : Progress} {s t : State}
    (hfinish : ∀ u, f (finishRender u) = f u)
    (hstep : ∀ j < k, ∀ u w, sampleStep P { pr with index := pr.index + j } u = some w → f w = f u)
    (h : renderLoop P k pr s = .next t) : f t = f s := by
  induction k generalizing pr s with
  | zero =>
    rw [renderLoop_zero, Host.Outcome.next.injEq] at h
    rw [← h, hfinish]
  | succ k ih =>
    obtain ⟨u, hu, hloop⟩ := renderLoop_succ_eq_next h
    have hrest : f t = f u := ih (fun j hj v w hw => hstep (j + 1) (by omega) v w
      (by simpa only [Nat.add_assoc, Nat.add_comm 1] using hw)) hloop
    exact hrest.trans (hstep 0 k.succ_pos s u hu)

/-- A sample loop leaves a value in each frame of its samples. -/
theorem renderLoop_read_own {P : Params} {k j : Nat} {pr : Progress} {s t : State} (h : renderLoop P k pr s = .next t)
    (hlo : pr.index ≤ j) (hhi : j < pr.index + k) : ∃ v, t.out.read j = some v := by
  induction k generalizing pr s with
  | zero => omega
  | succ k ih =>
    obtain ⟨u, hu, hloop⟩ := renderLoop_succ_eq_next h
    rcases hlo.eq_or_lt with rfl | hlt
    · obtain ⟨v, hv⟩ := (sampleStep_frame hu).out
      exact ⟨v, by rw [renderLoop_read_other hloop (.inl (Nat.lt_succ_self _)), hv, Memory.read_write_same]⟩
    · exact ih hloop hlt (by simp only; omega)

/-- A sample step writes phase2 in mode 3 only, and the supersaw phases in mode 2 only. -/
theorem sampleStep_owned {P : Params} {pr : Progress} {s t : State} (h : sampleStep P pr s = some t) :
    ∃ v, resolve pr.src .mode pr.index = some v ∧ (modeCode v ≠ 3#3 → t.phase2 = s.phase2) ∧
      (modeCode v ≠ 2#3 → t.ssp = s.ssp) := by
  obtain ⟨r, hr, rfl⟩ := sampleStep_eq_some.mp h
  obtain ⟨x, hg⟩ := generate_frame P (modeCode r.mode) (openSample P s r)
  rw [hg]
  obtain ⟨hmode, -⟩ := resolveAll_eq_some.mp hr
  obtain ⟨hv, -⟩ := resolveFinite_eq_some.mp hmode
  exact ⟨r.mode, hv, fun h3 => if_neg h3, fun h2 => if_neg h2⟩

/-- Settles O41: the checks pass, so the sample loop runs to its end, and each clause is one of the loop's. -/
theorem renderCompletes : Obligations.RenderCompletes := by
  intro s n src hf hn hi hlen hfin
  obtain ⟨t, ht, hloop⟩ := renderWith_completes_ok (P := Config.params) hf hn hi (firstBadArray_eq_none.mpr hlen)
    (firstNonFinite_eq_none.mpr fun k hk p v => hfin p k v hk)
  obtain ⟨hsr, hinitd, hfault, hfinfo, hcmds, hnmax, hrend, hsmp, hresp⟩ := renderLoop_frame hloop
  refine ⟨t, ht, hresp, hsr, hinitd.trans hi, hfault.trans hf, hfinfo, hcmds, hnmax, hrend, hsmp,
    fun k hk => renderLoop_read_own hloop k.zero_le (by simpa using hk),
    fun k hk => ?_, fun h3 => ?_, fun h2 => ?_⟩
  · exact renderLoop_read_other (s := beginRender s n src) hloop (.inr (by simpa using hk))
  · refine renderLoop_keeps (s := beginRender s n src) State.phase2 (fun _ => rfl) (fun j hj u w hw => ?_) hloop
    obtain ⟨v, hv, hphase2, -⟩ := sampleStep_owned hw
    exact hphase2 (h3 j v hj (by simpa using hv))
  · refine renderLoop_keeps (s := beginRender s n src) State.ssp (fun _ => rfl) (fun j hj u w hw => ?_) hloop
    obtain ⟨v, hv, -, hssp⟩ := sampleStep_owned hw
    exact hssp (h2 j v hj (by simpa using hv))

/-- Settles O42: a loop of no samples is the end of the RENDER. -/
theorem renderOfNoFramesChangesNothing : Obligations.RenderOfNoFramesChangesNothing := by
  intro s src hf hi hrend hsmp hlen
  have hok : exec (.render 0 src) s = .next (finishRender (beginRender s 0 src)) :=
    renderWith_ok hf s.nmax.zero_le hi (firstBadArray_eq_none.mpr fun p => .inl (hlen p)) rfl
  rw [hok, hrend, hsmp]
  rfl

/-! ## A RENDER as a function of the record (R197) -/

namespace State.SameRecord

variable {s u : State} (h : s.SameRecord u)
include h

theorem respond (st : Status) (ka : Option Bool) : (s.respond st ka).SameRecord (u.respond st ka) :=
  ⟨h.phase, h.phase2, h.ssp, h.dcX, h.dcY, h.sr, h.initd, h.fault, h.finfo, h.nmax⟩

theorem respondFaulted (ka : Option Bool) : (s.respondFaulted ka).SameRecord (u.respondFaulted ka) :=
  ⟨h.phase, h.phase2, h.ssp, h.dcX, h.dcY, h.sr, h.initd, h.fault, h.finfo, h.nmax⟩

theorem raiseFault (code : FaultCode) (p : Fin 8) (k : Nat) : (s.raiseFault code p k).SameRecord (u.raiseFault code p k) :=
  ⟨h.phase, h.phase2, h.ssp, h.dcX, h.dcY, h.sr, h.initd, rfl, rfl, h.nmax⟩

theorem writeSilence (n : Nat) : (s.writeSilence n).SameRecord (u.writeSilence n) := by
  rw [s.writeSilence_eq n, u.writeSilence_eq n]
  exact ⟨h.phase, h.phase2, h.ssp, h.dcX, h.dcY, h.sr, h.initd, h.fault, h.finfo, h.nmax⟩

theorem beginRender (n : Nat) (src : Sources) :
    (Machine.beginRender s n src).SameRecord (Machine.beginRender u n src) :=
  (beginRender_sameRecord s n src).symm.trans (h.trans (beginRender_sameRecord u n src))

end State.SameRecord

/-- Settles O46: the record decides the case of the procedure, and each case's writes are a function of it. -/
theorem renderIsAFunctionOfTheRecord : Obligations.RenderIsAFunctionOfTheRecord := by
  intro s u n src hrec t ht
  rcases renderWith_cases ht with ⟨hf, rfl⟩ | ⟨hf, hn, rfl⟩ | ⟨hf, hn, hi, rfl⟩ | ⟨hf, hn, hi, p, hp, rfl⟩ |
    ⟨hf, hn, hi, hlen, p, k, hk, rfl⟩ | ⟨hf, hn, hi, hlen, hfin, hloop⟩
  · refine ⟨_, renderWith_faulted (hrec.fault ▸ hf), hrec.respondFaulted .., ?_, fun h => absurd h hf⟩
    rw [State.respondFaulted_resp, State.respondFaulted_resp, hrec.fault, hrec.finfo]
  · exact ⟨_, renderWith_tooLong (hrec.fault ▸ hf) (hrec.nmax ▸ hn), hrec.raiseFault .., rfl, nofun⟩
  · refine ⟨_, renderWith_uninitialised (hrec.fault ▸ hf) (hrec.nmax ▸ hn) (hrec.initd ▸ hi),
      (hrec.writeSilence n).respond .., rfl, fun _ k hk => ?_⟩
    rw [State.respond_out, State.respond_out, s.writeSilence_read, u.writeSilence_read, if_pos hk, if_pos hk]
  · exact ⟨_, renderWith_badArray (hrec.fault ▸ hf) (hrec.nmax ▸ hn) (hrec.initd ▸ hi) hp,
      hrec.raiseFault .., rfl, nofun⟩
  · exact ⟨_, renderWith_nonFinite (hrec.fault ▸ hf) (hrec.nmax ▸ hn) (hrec.initd ▸ hi) hlen hk,
      hrec.raiseFault .., rfl, nofun⟩
  · obtain ⟨v, hv, htv, hread⟩ := renderLoop_congr (pr' := ⟨n, src, 0⟩) (hrec.beginRender n src) (fun _ _ => rfl) hloop
    obtain ⟨-, -, -, -, -, -, -, -, hresp⟩ := renderLoop_frame hloop
    obtain ⟨-, -, -, -, -, -, -, -, hresp'⟩ := renderLoop_frame hv
    exact ⟨v, (renderWith_ok (hrec.fault ▸ hf) (hrec.nmax ▸ hn) (hrec.initd ▸ hi) hlen hfin).trans hv, htv,
      hresp.trans hresp'.symm, fun _ k hk => by simpa using hread k hk⟩

end Machine

end Sys2Proof
end

section
/-! PROOFS. The machine over a RENDER (43_engine.md R180, R185 to R187; 60_exceptions.md R220 to R224): one sample step of
`step` as its register writes, a RENDER as its sample steps, and a step that always answers. -/

namespace Sys2Proof.Machine

/-! ## One step of a RENDER in progress (R186; 42_postprocess.md R162, R164) -/

/-- A generator's writes, its result named (10_state.md R26). -/
theorem generate_eq (P : Params) (m : ModeBits) (s : State) :
    generate P m s =
      { s with
        smp := { s.smp with x := (generate P m s).smp.x },
        ssp := if m = 0b010#3 then voiceAdvance s.sr s.smp.f s.smp.det s.ssp else s.ssp,
        phase2 := if m = 0b011#3 then advance s.phase2 (fmInc P s.sr s.smp.f s.smp.tim) else s.phase2 } := by
  obtain ⟨x, hg⟩ := generate_frame P m s
  rw [hg]

/-- What follows the generator, the end of the RENDER told by the index. -/
theorem afterGenerator_eq (pr : Progress) (u : State) :
    afterGenerator pr u =
      { closeSample u pr.index with
        smp := .idle,
        rend := if pr.index + 1 < pr.len then some { pr with index := pr.index + 1 } else none,
        resp := if pr.index + 1 < pr.len then u.resp else some ⟨.ok, some true⟩ } := by
  unfold afterGenerator
  split_ifs <;> rfl

/-- The generator result of a sample step that starts in s with the resolved parameters r. -/
def sampleResult (s : State) (r : Resolved) : F64 :=
  (generate Config.params (modeCode r.mode) (openSample Config.params s r)).smp.x

section
variable {s : State} {pr : Progress} (hrend : s.rend = some pr)
include hrend

/-- A step of a RENDER in progress as its register and frame writes. -/
theorem step_of_resolved_eq {r : Resolved} (hr : resolveAll pr.src pr.index = some r) :
    step s = .next { s with
      phase := advance s.phase (inc s.sr (clampFreq Config.params s.sr r.freq)),
      phase2 := if modeCode r.mode = 3#3 then advance s.phase2
        (fmInc Config.params s.sr (clampFreq Config.params s.sr r.freq) (clampUnit r.timbre)) else s.phase2,
      ssp := if modeCode r.mode = 2#3 then
        voiceAdvance s.sr (clampFreq Config.params s.sr r.freq) (clampUnit r.detune) s.ssp else s.ssp,
      dcX := sampleResult s r,
      dcY := dcOutput s.dcX s.dcY (sampleResult s r),
      out := s.out.write pr.index ((dcOutput s.dcX s.dcY (sampleResult s r)).mul (clampUnit r.gain)),
      rend := if pr.index + 1 < pr.len then some { pr with index := pr.index + 1 } else none,
      smp := .idle,
      resp := if pr.index + 1 < pr.len then s.resp else some ⟨.ok, some true⟩ } := by
  obtain ⟨i, hdec, hexec⟩ := exec_of_modeCode r.mode
  rw [step_of_resolved hrend hr hdec (hexec _), afterGenerator_eq, generate_eq]
  rfl

/-- A step of a RENDER in progress is its sample step, and the RENDER's end with the last one. -/
theorem step_of_sampleStep {u : State} (hu : sampleStep Config.params pr s = some u) :
    step s = .next (if pr.index + 1 < pr.len then u else finishRender u) := by
  rw [step_of_rend_some hrend, stepSample_eq, hu]

end

/-- Settles O32: the writes of the step, with the generator's result read off mode by mode. -/
theorem sampleStepFollowsItsProcedure : Obligations.SampleStepFollowsItsProcedure := by
  rintro s pr r f dt g pw det fmi tim hrend hr rfl rfl rfl rfl rfl rfl rfl
  refine ⟨_, sampleResult s r, _, step_of_resolved_eq hrend hr, fun h => ?_, fun h => ?_, fun h => ⟨?_, if_pos h⟩,
    fun h => ⟨?_, if_pos h⟩, fun h => ?_, fun h => if_neg h, fun h => if_neg h, rfl, rfl, rfl, rfl,
    fun k => Memory.read_write .., rfl, rfl, rfl, rfl, rfl, rfl, rfl, fun h => ⟨if_pos h, if_pos h⟩,
    fun h => ⟨if_neg h.not_gt, if_neg h.not_gt⟩⟩
  all_goals
    rw [sampleResult, h]
    rfl

theorem exists_sampleStep (P : Params) {pr : Progress} (s : State) (h : ∃ r, resolveAll pr.src pr.index = some r) :
    ∃ u, sampleStep P pr s = some u := by
  obtain ⟨r, hr⟩ := h
  exact ⟨_, sampleStep_eq_some.mpr ⟨r, hr, rfl⟩⟩

/-! ## A RENDER is its sample steps (R180, R185; log 9) -/

/-- The machine runs the last k samples of a RENDER in progress as the sample loop does. -/
theorem run_eq_renderLoop {k : Nat} {pr : Progress} {s : State} (hrend : s.rend = some pr)
    (hlen : pr.index + (k + 1) = pr.len) (hres : ∀ j < k + 1, ∃ r, resolveAll pr.src (pr.index + j) = some r) :
    Host.Core.run Sys2Proof.core (k + 1) s = renderLoop Config.params (k + 1) pr s := by
  induction k generalizing pr s with
  | zero =>
    obtain ⟨u, hu⟩ := exists_sampleStep Config.params s (hres 0 Nat.one_pos)
    rw [core_run_succ 0 (step_of_sampleStep hrend hu), if_neg (by omega), renderLoop_succ hu]
    rfl
  | succ k ih =>
    obtain ⟨u, hu⟩ := exists_sampleStep Config.params s (hres 0 (k + 1).succ_pos)
    rw [core_run_succ (k + 1) (step_of_sampleStep hrend hu), if_pos (by omega), renderLoop_succ hu]
    refine ih (sampleStep_frame hu).rend (by simp only; omega) fun j hj => ?_
    simpa only [Nat.add_right_comm, Nat.add_assoc] using hres (j + 1) (by omega)

/-- Settles O43: the checks pass, and the sample loop that RENDER runs is the machine's own run. -/
theorem renderIsItsSampleStepsInOrder : Obligations.RenderIsItsSampleStepsInOrder := by
  intro s n src hf h1 hn hi hlen hfin
  obtain ⟨k, rfl⟩ := Nat.exists_eq_add_of_le' h1
  rw [exec_render, renderWith_ok hf hn hi hlen hfin]
  exact (run_eq_renderLoop rfl (Nat.zero_add _) fun j hj => exists_resolveAll hlen hfin (by simpa using hj)).symm

/-! ## A step always answers (R187; 60_exceptions.md R220, R223) -/

theorem unlessFaulted_cmds {s body : State} (ka : Option Bool) (h : body.cmds = s.cmds) :
    (s.unlessFaulted ka body).cmds = s.cmds := by
  unfold State.unlessFaulted
  split_ifs
  · exact h
  · rfl

theorem initBody_cmds (s : State) (rate : F64) (off : Seven F64) : (initBody s rate off).cmds = s.cmds := by
  unfold initBody
  split_ifs <;> rfl

theorem resetBody_cmds (s : State) : (resetBody s).cmds = s.cmds := by
  unfold resetBody
  split_ifs <;> rfl

theorem renderWith_cmds {P : Params} {n : Nat} {src : Sources} {s t : State} (h : renderWith P n src s = .next t) :
    t.cmds = s.cmds := by
  rcases renderWith_cases h with ⟨-, rfl⟩ | ⟨-, -, rfl⟩ | ⟨-, -, -, rfl⟩ | ⟨-, -, -, p, -, rfl⟩ |
    ⟨-, -, -, -, p, k, -, rfl⟩ | ⟨-, -, -, -, -, hloop⟩
  · rfl
  · rfl
  · rw [s.writeSilence_eq n]
    rfl
  · rfl
  · rfl
  · obtain ⟨-, -, -, -, hcmds, -⟩ := renderLoop_frame hloop
    exact hcmds

/-- Every command completes, and leaves the commands that wait. -/
theorem exec_command_completes {c : Command} {i : Instr} (hdec : decodeCommand c = .ok i) (s : State) :
    ∃ t, exec i s = .next t ∧ t.cmds = s.cmds := by
  rcases decodeCommand_cases hdec with ⟨rate, off, rfl⟩ | ⟨n, src, rfl⟩ | rfl | rfl
  · exact ⟨_, exec_init .., unlessFaulted_cmds none (initBody_cmds ..)⟩
  · obtain ⟨t, ht⟩ := renderWith_completes Config.params n src s
    exact ⟨t, ht, renderWith_cmds ht⟩
  · exact ⟨_, exec_reset s, unlessFaulted_cmds none (resetBody_cmds s)⟩
  · exact ⟨_, exec_unrecognised .., unlessFaulted_cmds none rfl⟩

/-- Settles O55: the next sample step resolves, and the next command is one that completes. -/
theorem safeCoreNeverStops : Obligations.SafeCoreNeverStops := by
  intro s hinv hhost
  cases hrend : s.rend with
  | some pr =>
    have hok := hinv.render pr hrend
    obtain ⟨u, hu⟩ := exists_sampleStep Config.params s (exists_resolveAll hok.arrays hok.values hok.index)
    have hcmds := (sampleStep_frame hu).cmds
    refine ⟨_, step_of_sampleStep hrend hu, ?_⟩
    split_ifs
    · exact fun c hc => hhost c (hcmds ▸ hc)
    · exact fun c hc => hhost c (hcmds ▸ hc)
  | none =>
    cases hc : s.cmds with
    | nil => exact ⟨s, step_waits hrend hc, hhost⟩
    | cons c rest =>
      obtain ⟨i, hdec⟩ := hhost c (hc ▸ List.mem_cons_self)
      obtain ⟨t, ht, (hcmds : t.cmds = rest)⟩ := exec_command_completes hdec { s with cmds := rest }
      refine ⟨t, (step_runs_command hrend hc hdec).trans ht, fun d hd => hhost d ?_⟩
      rw [hc]
      exact List.mem_cons_of_mem c (hcmds ▸ hd)

/-! ## A fault stays (R189; 60_exceptions.md R224; 10_state.md R30) -/

/-- Settles O56: a faulted core of the invariant has no RENDER in progress, and its commands only answer. -/
theorem faultIsNeverCleared : Obligations.FaultIsNeverCleared := by
  intro s t hinv hf h
  rcases step_cases h with ⟨pr, u, hpr, -⟩ | ⟨hrend, -, rfl⟩ | ⟨c, rest, i, hrend, -, hdec, hexec⟩
  · exact absurd (hinv.render pr hpr).fault hf
  · exact ⟨⟨rfl, rfl, rfl, rfl, rfl, rfl, rfl, rfl, rfl, rfl⟩, rfl, hrend⟩
  · obtain ⟨ka, hka⟩ := exec_command_faulted (s := { s with cmds := rest }) hdec hf
    obtain rfl := Host.Outcome.next.inj (hka.symm.trans hexec)
    exact ⟨⟨rfl, rfl, rfl, rfl, rfl, rfl, rfl, rfl, rfl, rfl⟩, rfl, hrend⟩

end Sys2Proof.Machine
end

section
/-! PROOFS. What a command returns (60_exceptions.md R221, R225; 10_state.md R30, R33): the numbers of the statuses and of the
fault causes, and the statuses each command answers. -/

namespace Sys2Proof.Machine

/-! ## The numbers (R221, R225) -/

@[simp] theorem FaultCode.code_ofCode (c : BitVec 2) : (FaultCode.ofCode c).code = c := by
  revert c
  decide

/-- Settles O48: the tables row by row; that each fault code is assigned is `FaultCode.code_ofCode`. -/
theorem statusAndFaultNumbers : Obligations.StatusAndFaultNumbers :=
  ⟨rfl, rfl, rfl, rfl, fun _ _ => rfl, rfl, rfl, rfl, rfl, FaultCode.code_ofCode⟩

/-! ## The statuses of each command (R221; 10_state.md R33) -/

/-- The state is faulted, and its response carries its own FAULT and FINFO. -/
def State.ReportsFault (t : State) (keepAlive : Option Bool) : Prop :=
  t.resp = some ⟨.faulted t.fault t.finfo, keepAlive⟩ ∧ t.fault ≠ .noFault

theorem State.respondFaulted_reportsFault {s : State} (hf : s.fault ≠ .noFault) (ka : Option Bool) :
    (s.respondFaulted ka).ReportsFault ka := ⟨rfl, hf⟩

theorem State.raiseFault_reportsFault (s : State) (code : FaultCode) (p : Fin 8) (k : Nat) (hcode : code ≠ .noFault) :
    (s.raiseFault code p k).ReportsFault (some false) := ⟨rfl, hcode⟩

/-- A guarded command either is its body or reports the fault. -/
theorem State.unlessFaulted_cases (s : State) (ka : Option Bool) (body : State) :
    s.unlessFaulted ka body = body ∨ (s.unlessFaulted ka body).ReportsFault ka := by
  by_cases hf : s.fault = .noFault
  · exact .inl (unlessFaulted_ok hf ka body)
  · exact .inr (unlessFaulted_faulted hf ka body ▸ respondFaulted_reportsFault hf ka)

theorem State.unlessFaulted_resp {s body : State} {ka : Option Bool} {a b : Response}
    (hbody : body.resp = some a ∨ body.resp = some b) :
    (s.unlessFaulted ka body).resp = some a ∨ (s.unlessFaulted ka body).resp = some b ∨
      (s.unlessFaulted ka body).ReportsFault ka := by
  rcases s.unlessFaulted_cases ka body with h | h
  · rw [h, ← or_assoc]
    exact .inl hbody
  · exact .inr (.inr h)

theorem initBody_resp (s : State) (rate : F64) (off : Seven F64) :
    (initBody s rate off).resp = some ⟨.ok, none⟩ ∨ (initBody s rate off).resp = some ⟨.initRejected, none⟩ := by
  unfold initBody
  split_ifs
  · exact .inl rfl
  · exact .inr rfl

theorem resetBody_resp (s : State) :
    (resetBody s).resp = some ⟨.ok, none⟩ ∨ (resetBody s).resp = some ⟨.ignored, none⟩ := by
  unfold resetBody
  split_ifs
  · exact .inl rfl
  · exact .inr rfl

theorem renderWith_resp {P : Params} {n : Nat} {src : Sources} {s t : State} (h : renderWith P n src s = .next t) :
    t.resp = some ⟨.ok, some true⟩ ∨ t.resp = some ⟨.silentNotInit, some true⟩ ∨ t.ReportsFault (some false) := by
  rcases renderWith_cases h with ⟨hf, rfl⟩ | ⟨-, -, rfl⟩ | ⟨-, -, -, rfl⟩ | ⟨-, -, -, p, -, rfl⟩ |
    ⟨-, -, -, -, p, k, -, rfl⟩ | ⟨-, -, -, -, -, hloop⟩
  · exact .inr (.inr (State.respondFaulted_reportsFault hf _))
  · exact .inr (.inr (s.raiseFault_reportsFault .blockLength 7 0 nofun))
  · exact .inr (.inl rfl)
  · exact .inr (.inr (s.raiseFault_reportsFault .arrayLength p.index 0 nofun))
  · exact .inr (.inr (s.raiseFault_reportsFault .nonFinite p.index k nofun))
  · obtain ⟨-, -, -, -, -, -, -, -, hresp⟩ := renderLoop_frame hloop
    exact .inl hresp

/-- A response of one of two statuses, or a reported fault, as one status with its keepAlive. -/
theorem State.exists_status {t : State} {a b : Status} (ka : Status → Option Bool)
    (h : t.resp = some ⟨a, ka a⟩ ∨ t.resp = some ⟨b, ka b⟩ ∨ t.ReportsFault (ka (.faulted t.fault t.finfo))) :
    ∃ st, t.resp = some ⟨st, ka st⟩ ∧ (st = a ∨ st = b ∨ (st = .faulted t.fault t.finfo ∧ t.fault ≠ .noFault)) := by
  rcases h with hresp | hresp | ⟨hresp, hf⟩
  · exact ⟨a, hresp, .inl rfl⟩
  · exact ⟨b, hresp, .inr (.inl rfl)⟩
  · exact ⟨_, hresp, .inr (.inr ⟨rfl, hf⟩)⟩

/-- Settles O47: a guarded command answers as its body does or reports the fault, and RENDER answers in each case of R226. -/
theorem everyCommandReturnsItsStatus : Obligations.EveryCommandReturnsItsStatus := by
  refine fun s t => ⟨fun rate off h => ?_, fun n src h => ?_, fun h => ?_, fun w h => ?_⟩
  · obtain rfl := Host.Outcome.next.inj h
    exact State.exists_status (fun _ => none) (State.unlessFaulted_resp (initBody_resp s rate off))
  · exact State.exists_status (fun st => some st.keepAlive) (renderWith_resp h)
  · obtain rfl := Host.Outcome.next.inj h
    exact State.exists_status (fun _ => none) (State.unlessFaulted_resp (resetBody_resp s))
  · obtain rfl := Host.Outcome.next.inj h
    rcases s.unlessFaulted_cases none (s.respond .ignored none) with hbody | ⟨hresp, hf⟩
    · exact ⟨_, congrArg State.resp hbody, .inl rfl⟩
    · exact ⟨_, hresp, .inr ⟨rfl, hf⟩⟩

end Sys2Proof.Machine
end

section
/-! PROOFS. The power-on state (70_reset_and_hazards.md R250; 20_memory.md R56). -/

namespace Sys2Proof.Machine

/-- Settles O52: the values are those of the reset record, and a core with nothing in progress or delivered waits. -/
theorem powerOnStateWaits : Obligations.PowerOnStateWaits := by
  have hrend : State.reset.rend = none := rfl
  have hcmds : State.reset.cmds = [] := rfl
  exact ⟨rfl, rfl, rfl, hrend, hcmds, Memory.read_nil, step_waits hrend hcmds⟩

end Sys2Proof.Machine
end

section
/-! PROOFS. The decoder undoes the encoder (30_encoding.md R70 to R81): each assigned word with its record decodes to its
command, any other word to an unrecognised command, and each of the five mode codes to its generator. -/

namespace Sys2Proof

theorem decodeCommand_init (sampleRate : F64) (off : Seven F64) :
    decodeCommand { word := 0x00000001#32, ops := .init sampleRate off } = .ok (.init sampleRate off) := by
  rw [decodeCommand, cmdKind_eq]
  rfl

theorem decodeCommand_reset : decodeCommand { word := 0x00000010#32, ops := .empty } = .ok .reset := by
  rw [decodeCommand, cmdKind_eq]
  rfl

theorem cmdKind_of_wellFormed_unrecognised {w : CmdWord} (h : (Instr.unrecognised w).WellFormed = true) :
    cmdKind w = .unrecognised := by
  obtain ⟨-, -, -, hunrec⟩ := commandWordsDecodeAsTabled w
  exact hunrec.mpr (by simpa [Instr.WellFormed, assignedWords] using h)

/-- Settles O2: row by row; well-formedness is what keeps an unrecognised command's word out of the assigned ones. -/
theorem decodeEncodeAgree : Obligations.DecodeEncodeAgree := by
  intro i hwf
  cases i with
  | init sampleRate off => exact decodeCommand_init sampleRate off
  | render n src => exact decodeCommand_render n src
  | reset => exact decodeCommand_reset
  | unrecognised w => exact decodeCommand_unrecognised (cmdKind_of_wellFormed_unrecognised hwf)
  | saw | pulse | supersaw | fm2op | pdfold => rfl

end Sys2Proof
end
